-- ==== Sys2Proof/Word.lean ====
section
/-!
DEFINITION. The words of the CHIP-8 core: bytes, instruction words, and the four field types of the
decoder (00_scope.md R4, R6; 30_encoding.md R121). All values are unsigned (R6).
-/

namespace Sys2Proof

/-- A memory byte or the contents of a general register (00_scope.md R4, V_WIDTH). -/
abbrev Byte := BitVec 8

/-- A 16-bit value: an instruction word, `pc`, `I`, or a call-stack entry (00_scope.md R4). -/
abbrev Word := BitVec 16

/-- A register index, the x or y field (30_encoding.md R121, R125). -/
abbrev RegIx := Fin 16

/-- A sprite height, the n field of Dxyn: a count from 0 to 15 (30_encoding.md R124). -/
abbrev Height := Fin 16

/-- An address literal, the nnn field (30_encoding.md R121, R124). -/
abbrev Addr12 := BitVec 12

end Sys2Proof
end

