-- ==== Sys2Proof/Machine/Flags.lean ====
section
/-!
DEFINITION. Every flag computation. VF holds 1 or 0 (41_alu.md R208-R212, R220; 43_display.md R293).
-/

namespace Sys2Proof.Machine

/-- A flag's value in VF. -/
def flagByte (b : Bool) : Byte := if b then 1 else 0

/-- 8xy4: carry out of the 8-bit addition (41_alu.md R208). -/
def carryFlag (a b : Byte) : Byte := flagByte (255 < a.toNat + b.toNat)

/-- 8xy5 with (a, b), 8xy7 with (b, a): no borrow in `a - b`, equality included (41_alu.md R209, R211). -/
def noBorrowFlag (a b : Byte) : Byte := flagByte (b.toNat ≤ a.toNat)

/-- 8xy6: the bit shifted out, bit 0 (41_alu.md R210). -/
def lowBitFlag (a : Byte) : Byte := a &&& 1

/-- 8xyE: the bit shifted out, bit 7 (41_alu.md R212). -/
def highBitFlag (a : Byte) : Byte := a >>> 7

/-- Dxyn: some on-pixel was turned off (43_display.md R293). -/
def collisionFlag (hit : Bool) : Byte := flagByte hit

end Sys2Proof.Machine
end

