-- ==== Sys2Proof/Config.lean ====
section
/-!
DEFINITION. The fixed sizes of the core (00_scope.md R4), its parameters (R5), and the free values:
what the spec leaves open is an opaque constant here, so that no proof can lean on a value of it.
-/

namespace Sys2Proof

/-- MEM_SIZE: addresses 0x000-0xFFF (00_scope.md R4). -/
def Config.memSize : Nat := 4096

/-- PROGRAM_BASE, also the reset `pc` (00_scope.md R4; 70_reset_and_hazards.md R421). -/
def Config.programBase : Nat := 0x200

/-- The longest program the host may launch: 0x200 + L - 1 <= 0xFFF (70_reset_and_hazards.md R430). -/
def Config.maxProgramLength : Nat := 3584

/-- FONT_BYTES: 16 glyphs of 5 bytes (00_scope.md R4). A value of FONT is one byte for each of 0x000-0x04F. -/
abbrev Font := Vector Byte 80

/-- The default FONT, glyphs 0 to 7 (70_reset_and_hazards.md R424). -/
def Config.fontLow : List Byte :=
  [0xF0, 0x90, 0x90, 0x90, 0xF0,  0x20, 0x60, 0x20, 0x20, 0x70,
   0xF0, 0x10, 0xF0, 0x80, 0xF0,  0xF0, 0x10, 0xF0, 0x10, 0xF0,
   0x90, 0x90, 0xF0, 0x10, 0x10,  0xF0, 0x80, 0xF0, 0x10, 0xF0,
   0xF0, 0x80, 0xF0, 0x90, 0xF0,  0xF0, 0x10, 0x20, 0x40, 0x40]

/-- The default FONT, glyphs 8 to F (70_reset_and_hazards.md R424). -/
def Config.fontHigh : List Byte :=
  [0xF0, 0x90, 0xF0, 0x90, 0xF0,  0xF0, 0x90, 0xF0, 0x10, 0xF0,
   0xF0, 0x90, 0xF0, 0x90, 0x90,  0xE0, 0x90, 0xE0, 0x90, 0xE0,
   0xF0, 0x80, 0x80, 0x80, 0xF0,  0xE0, 0x90, 0x90, 0x90, 0xE0,
   0xF0, 0x80, 0xF0, 0x80, 0xF0,  0xF0, 0x80, 0xF0, 0x80, 0x80]

/-- The default value of the parameter FONT (70_reset_and_hazards.md R424; 00_scope.md R5; 92_eei_decisions.md D6).
The machine takes FONT as an argument, `State.font`; only `State.reset` names this value (log 2). -/
def Config.defaultFont : Font := ⟨(Config.fontLow ++ Config.fontHigh).toArray, rfl⟩

/-- UNINIT_MEM: what an address holds that neither FONT nor a program nor a store has given a byte.
A FREE VALUE: any byte (70_reset_and_hazards.md R425; 92_eei_decisions.md D5). SAFE, log 1. -/
opaque Config.uninitMem : Nat → Byte

/-- RAND: the byte of the k-th random draw. A FREE VALUE: an opaque byte for each draw, with no law
from one draw to another (41_alu.md R224; 92_eei_decisions.md D22). SAFE, log 3. -/
opaque Config.rand : Nat → Byte

/-- DEFAULT_PROGRAM: the bytes loaded when the host supplies no program. A FREE VALUE
(70_reset_and_hazards.md R431; 92_eei_decisions.md D27). SAFE, log 11. -/
opaque Config.defaultProgram : List Byte

/-- TIMER_PERIOD in units of 1/6000 s: the spec's default, 1/60 s (60_exceptions.md R373, choice (b)).
Only the timed form of a timer (Machine/Timed.lean) speaks of a period, and takes it as an argument:
no rule of the untimed model depends on it. -/
def Config.timerPeriod : Nat := 100

/-- The reference's period, about 166 ms, in the same units (60_exceptions.md R373, choice (a)): the other
configuration value of TIMER_PERIOD that the spec keeps available. -/
def Config.referenceTimerPeriod : Nat := 996

end Sys2Proof
end

