-- ==== Sys2Proof/Syntax.lean ====
section
/-!
DEFINITION. The 34 instructions of the opcode table, one constructor per row of
spec/opcode_table.json, with the operands of 30_encoding.md R130.
-/

namespace Sys2Proof

/-- An instruction (30_encoding.md R127, R128, R130). The y operand of `shr` and `shl` is the field
that R125 says is ignored: it is kept so that an instruction determines its word. -/
inductive Instr where
  /-- 00E0 CLS (43_display.md R290) -/
  | cls
  /-- 00EE RET (40_control_flow.md R161) -/
  | ret
  /-- 1nnn JP nnn (40_control_flow.md R162) -/
  | jp (nnn : Addr12)
  /-- 2nnn CALL nnn (40_control_flow.md R163) -/
  | call (nnn : Addr12)
  /-- 3xkk SE Vx, kk (40_control_flow.md R165) -/
  | seImm (x : RegIx) (kk : Byte)
  /-- 4xkk SNE Vx, kk (40_control_flow.md R166) -/
  | sneImm (x : RegIx) (kk : Byte)
  /-- 5xy0 SE Vx, Vy (40_control_flow.md R167) -/
  | seReg (x y : RegIx)
  /-- 6xkk LD Vx, kk (41_alu.md R202) -/
  | ldImm (x : RegIx) (kk : Byte)
  /-- 7xkk ADD Vx, kk (41_alu.md R203) -/
  | addImm (x : RegIx) (kk : Byte)
  /-- 8xy0 LD Vx, Vy (41_alu.md R204) -/
  | ldReg (x y : RegIx)
  /-- 8xy1 OR Vx, Vy (41_alu.md R205) -/
  | orReg (x y : RegIx)
  /-- 8xy2 AND Vx, Vy (41_alu.md R206) -/
  | andReg (x y : RegIx)
  /-- 8xy3 XOR Vx, Vy (41_alu.md R207) -/
  | xorReg (x y : RegIx)
  /-- 8xy4 ADD Vx, Vy (41_alu.md R208) -/
  | addReg (x y : RegIx)
  /-- 8xy5 SUB Vx, Vy (41_alu.md R209) -/
  | sub (x y : RegIx)
  /-- 8xy6 SHR Vx {, Vy} (41_alu.md R210); y is ignored -/
  | shr (x y : RegIx)
  /-- 8xy7 SUBN Vx, Vy (41_alu.md R211) -/
  | subn (x y : RegIx)
  /-- 8xyE SHL Vx {, Vy} (41_alu.md R212); y is ignored -/
  | shl (x y : RegIx)
  /-- 9xy0 SNE Vx, Vy (40_control_flow.md R168) -/
  | sneReg (x y : RegIx)
  /-- Annn LD I, nnn (42_index_memory.md R250) -/
  | ldI (nnn : Addr12)
  /-- Bnnn JP V0, nnn (40_control_flow.md R172) -/
  | jpV0 (nnn : Addr12)
  /-- Cxkk RND Vx, kk (41_alu.md R224) -/
  | rnd (x : RegIx) (kk : Byte)
  /-- Dxyn DRW Vx, Vy, n (43_display.md R293) -/
  | drw (x y : RegIx) (n : Height)
  /-- Ex9E SKP Vx (44_keys_timers.md R321) -/
  | skp (x : RegIx)
  /-- ExA1 SKNP Vx (44_keys_timers.md R322) -/
  | sknp (x : RegIx)
  /-- Fx07 LD Vx, DT (44_keys_timers.md R323) -/
  | ldVxDt (x : RegIx)
  /-- Fx0A LD Vx, K (44_keys_timers.md R324) -/
  | ldVxK (x : RegIx)
  /-- Fx15 LD DT, Vx (44_keys_timers.md R325) -/
  | ldDtVx (x : RegIx)
  /-- Fx18 LD ST, Vx (44_keys_timers.md R326) -/
  | ldStVx (x : RegIx)
  /-- Fx1E ADD I, Vx (42_index_memory.md R252) -/
  | addIVx (x : RegIx)
  /-- Fx29 LD F, Vx (42_index_memory.md R253) -/
  | ldFVx (x : RegIx)
  /-- Fx33 LD B, Vx (42_index_memory.md R254) -/
  | ldBVx (x : RegIx)
  /-- Fx55 LD [I], Vx (42_index_memory.md R255) -/
  | ldMemVx (x : RegIx)
  /-- Fx65 LD Vx, [I] (42_index_memory.md R256) -/
  | ldVxMem (x : RegIx)
  deriving DecidableEq, Repr

end Sys2Proof
end

