-- ==== Sys2Proof/Machine/State.lean ====
section
/-!
DEFINITION. The machine's state as plain data, its reset, and the reasons a step can stop
(10_state.md; 60_exceptions.md sections 1 and 2; 70_reset_and_hazards.md section 1).
-/

namespace Sys2Proof.Machine

/-- Memory: the listed cells, by strictly rising address, none equal to what an unlisted address holds
(`Memory.wf`, Machine/Ops.lean). An unlisted address holds its FONT byte, or no byte the spec determines. -/
abbrev Memory := List Host.Cell

/-- The framebuffer: 32 rows of 64 pixels, `fb[row][col]` (10_state.md R56). -/
abbrev Frame := Vector (Vector Bool 64) 32

/-- One timer in the untimed form: its 8-bit counter and its due bit (10_state.md R48, R52). -/
structure Timer where
  value : Byte
  due : Bool
  deriving DecidableEq, Repr

/-- The causes of a core fault (60_exceptions.md R350). Each is taken as a transition into the Faulted run
state, never as a stop of the model (log 7). -/
inductive FaultCause where
  | unknownOpcode
  | stackOverflow
  | stackUnderflow
  | addressOutOfRange
  | fetchOutOfRange
  | pcMisaligned
  | keyIndexOutOfRange
  | indexOverflow
  deriving DecidableEq, Repr

/-- The codes of 60_exceptions.md R350. -/
def FaultCause.code : FaultCause → Nat
  | .unknownOpcode => 1
  | .stackOverflow => 2
  | .stackUnderflow => 3
  | .addressOutOfRange => 4
  | .fetchOutOfRange => 5
  | .pcMisaligned => 6
  | .keyIndexOutOfRange => 7
  | .indexOverflow => 8

/-- The fault record (10_state.md R61): the cause, `fault_pc`, and `fault_word`, which is `none` when the
fault happened during the fetch. -/
structure FaultRecord where
  cause : FaultCause
  pc : Word
  word : Option Word
  deriving DecidableEq, Repr

/-- The run state (10_state.md R60). -/
inductive RunState where
  | running
  | faulted (r : FaultRecord)
  deriving DecidableEq, Repr

/-- What the host may do between two cycles, and the cycle request itself (60_exceptions.md R389). -/
inductive Action where
  /-- Request one cycle (R380). -/
  | cycle
  /-- Time passes: set `dt_due` when `dt`, `st_due` when `st` (R372). -/
  | timePasses (dt st : Bool)
  /-- `KeyWrite(k, pressed)` (R384). -/
  | keyWrite (k : Fin 16) (pressed : Bool)
  /-- `ConsumeFrame()`: take the snapshot, then clear redraw (R386). -/
  | consumeFrame
  /-- Reset, then load the program, or the default program when there is none (70_reset_and_hazards.md
  R420, R430, R431, R432). -/
  | launch (program : Option (List Byte))
  deriving DecidableEq, Repr

/-- Everything the spec gives the machine (10_state.md section 10), the parameter FONT, and two fields of the model's
own. -/
structure State where
  /-- V0-VF (R30); VF, index 15, is also the flag register (R31). -/
  v : Vector Byte 16
  /-- The index register I (R33). -/
  i : Word
  /-- The program counter (R34). -/
  pc : Word
  /-- The call stack's entries (R40). -/
  stack : Vector Word 16
  /-- The number of call-stack entries in use (R41). -/
  sp : Fin 17
  /-- The delay timer and its due bit (R48, R52). -/
  dt : Timer
  /-- The sound timer and its due bit (R48, R52). -/
  st : Timer
  /-- The key matrix (R54). -/
  keys : Vector Bool 16
  /-- The framebuffer (R56). -/
  fb : Frame
  /-- The redraw flag (R57). -/
  redraw : Bool
  /-- Memory (20_memory.md R80). -/
  mem : Memory
  /-- The parameter FONT: what 0x000-0x04F hold until they are written (00_scope.md R5; 70_reset_and_hazards.md R424).
  No step changes it (log 2). -/
  font : Font
  /-- The run state (R60). -/
  run : RunState
  /-- The MODEL'S own: how many random draws have been taken (log 3). -/
  draws : Nat
  /-- The MODEL'S own: the host's coming actions; empty stands for cycle requests (log 4). -/
  schedule : List Action
  deriving DecidableEq, Repr

/-- A stop of the model with a fault. There is none: every fault of the spec is a transition into the Faulted
run state (60_exceptions.md R352), so no step answers `Outcome.fault` (log 7). SAFE. -/
inductive Fault where
  deriving DecidableEq, Repr

/-- A step with no transition. -/
inductive Refusal where
  /-- Raised by an arm of `exec` whose instruction has no meaning yet; no arm is left so. SAFE. -/
  | notModelled (mnemonic : String)
  /-- Raised by `cycle` when the core is Faulted: a Faulted core has no cycle transition (60_exceptions.md
  R356; 93_implementation_defined.md U17). SAFE. -/
  | coreFaulted (r : FaultRecord)
  /-- Raised by `launch` for a program longer than 3584 bytes: no launch (70_reset_and_hazards.md R430;
  93_implementation_defined.md U6). SAFE. -/
  | programTooLong
  deriving DecidableEq, Repr

/-- Every key released (70_reset_and_hazards.md R427). -/
def noKeys : Vector Bool 16 := Vector.replicate 16 false

/-- Every pixel off (70_reset_and_hazards.md R428). -/
def blankFrame : Frame := Vector.replicate 32 (Vector.replicate 64 false)

/-- The machine right after reset, for a value of FONT (70_reset_and_hazards.md R421-R429), with nothing listed in
memory (R424, R425). The values other than `pc` are the spec's decisions D2-D4 (log 6); those of `draws` and
`schedule` are DESIGN CHOICE (logs 3, 4). -/
def State.resetWith (font : Font) : State where
  v := Vector.replicate 16 0
  i := 0
  pc := 0x200
  stack := Vector.replicate 16 0
  sp := 0
  dt := ⟨0, false⟩
  st := ⟨0, false⟩
  keys := noKeys
  fb := blankFrame
  redraw := false
  mem := []
  font := font
  run := .running
  draws := 0
  schedule := []

/-- The machine right after reset with the default FONT (70_reset_and_hazards.md R424; log 2). -/
def State.reset : State := State.resetWith Config.defaultFont

end Sys2Proof.Machine
end

