-- ==== Sys2Proof/Machine/Ops.lean ====
section
/-!
DEFINITION. The named operations over registers, memory, the call stack, the timers and the run state:
20_memory.md section 2, 10_state.md R44 and R45, 60_exceptions.md R352 and R370.
-/

namespace Sys2Proof.Machine

/-- What a meaning answers. -/
abbrev Result := Host.Outcome State Fault Refusal

/-! ### Memory as data -/

/-- The byte the spec gives an address nothing has written: FONT at 0x000-0x04F, none elsewhere
(70_reset_and_hazards.md R424, R425). -/
def Memory.unlisted (font : Font) (a : Nat) : Option Byte := font[a]?

/-- The listed byte of an address. -/
def Memory.listed : Memory → Nat → Option Byte
  | [], _ => none
  | (k, b) :: rest, a => if k = a then some b else Memory.listed rest a

/-- One byte of memory: the listed byte, else the FONT byte, else the free byte UNINIT_MEM gives the address
(70_reset_and_hazards.md R424, R425; log 1). -/
def Memory.byte (font : Font) (m : Memory) (a : Nat) : Byte :=
  match Memory.listed m a with
  | some b => b
  | none => (Memory.unlisted font a).getD (Config.uninitMem a)

/-- List a byte at an address, keeping the addresses rising. -/
def Memory.insert : Memory → Nat → Byte → Memory
  | [], a, b => [(a, b)]
  | (k, c) :: rest, a, b =>
    if a < k then (a, b) :: (k, c) :: rest
    else if a = k then (a, b) :: rest
    else (k, c) :: Memory.insert rest a b

/-- Take an address out of the list. -/
def Memory.erase : Memory → Nat → Memory
  | [], _ => []
  | (k, c) :: rest, a => if k = a then rest else (k, c) :: Memory.erase rest a

/-- Write one byte. Writing what an unlisted address holds removes the entry, so the form stays canonical. -/
def Memory.store (font : Font) (m : Memory) (a : Nat) (b : Byte) : Memory :=
  if Memory.unlisted font a = some b then Memory.erase m a else Memory.insert m a b

/-- Write consecutive bytes from an address up (20_memory.md R85). -/
def Memory.storeBytes (font : Font) : Memory → Nat → List Byte → Memory
  | m, _, [] => m
  | m, a, b :: rest => Memory.storeBytes font (Memory.store font m a b) (a + 1) rest

/-- Read `n` consecutive bytes from an address up (20_memory.md R84). -/
def Memory.loadBytes (font : Font) (m : Memory) (a n : Nat) : List Byte :=
  (List.range n).map fun k => Memory.byte font m (a + k)

/-- The canonical form: rising addresses, all inside 0x000-0xFFF, none listed with what it holds unlisted. -/
abbrev Memory.wf (font : Font) (m : Memory) : Prop :=
  m.Pairwise (fun c d => c.1 < d.1) ∧
    ∀ c ∈ m, c.1 < Config.memSize ∧ Memory.unlisted font c.1 ≠ some c.2

/-- One byte of the machine's memory. -/
abbrev State.byte (s : State) (a : Nat) : Byte := Memory.byte s.font s.mem a

/-- `n` consecutive bytes of the machine's memory. -/
abbrev State.loadBytes (s : State) (a n : Nat) : List Byte := Memory.loadBytes s.font s.mem a n

/-- The machine's memory with consecutive bytes written. -/
abbrev State.storeBytes (s : State) (a : Nat) (bytes : List Byte) : Memory := Memory.storeBytes s.font s.mem a bytes

/-! ### Bounds checks (20_memory.md R81, R84-R86) -/

/-- `CheckRange(a, n)`: no byte, or the last one at most 0xFFF; addresses are exact numbers (R81, R86). -/
def inRange (a n : Nat) : Bool := n = 0 || a + n - 1 ≤ 0xFFF

/-! ### Faults (60_exceptions.md R352) -/

/-- `raise Fault(cause)`: the record holds the cause, `pc0` (which `pc` still is), and the word; the run state
becomes Faulted; nothing else changes. -/
def raise (cause : FaultCause) (word : Option Word) (s : State) : Result :=
  .next { s with run := .faulted ⟨cause, s.pc, word⟩ }

/-! ### Program counter (40_control_flow.md R160, R164) -/

/-- `pc <- pc0 + 2`. -/
def State.advance (s : State) : State := { s with pc := s.pc + 2 }

/-- `Skip(cond)`: advance by one width, and by a second one when the condition holds. -/
def State.skip (cond : Bool) (s : State) : State :=
  if cond then s.advance.advance else s.advance

/-! ### Registers (10_state.md R30) -/

/-- `V[x] <- b`. -/
def State.setV (s : State) (x : RegIx) (b : Byte) : State := { s with v := s.v.set x.val b }

/-- `V[15] <- b`, VF as the flag register (10_state.md R31). -/
def State.setFlag (s : State) (b : Byte) : State := s.setV 15 b

/-- `V[k] <- b0, V[k+1] <- b1, ...` in rising order, for Fx65 (42_index_memory.md R256). -/
def fillV : Vector Byte 16 → Nat → List Byte → Vector Byte 16
  | v, _, [] => v
  | v, k, b :: rest => fillV (if h : k < 16 then v.set k b else v) (k + 1) rest

/-! ### Call stack (10_state.md R44, R45) -/

/-- `Push(v)`: `none` is StackOverflow, with nothing written. -/
def State.push (s : State) (v : Word) : Option State :=
  if h : s.sp.val < 16 then
    some { s with stack := s.stack.set s.sp.val v, sp := ⟨s.sp.val + 1, by omega⟩ }
  else none

/-- `Pop()`: `none` is StackUnderflow. The popped entry keeps its value. -/
def State.pop (s : State) : Option (Word × State) :=
  if h : 0 < s.sp.val then
    some (s.stack[s.sp.val - 1], { s with sp := ⟨s.sp.val - 1, by omega⟩ })
  else none

/-! ### Timers (60_exceptions.md R370, R372; 44_keys_timers.md R325, R326) -/

/-- A nonzero timer whose due bit is set goes down by one and its bit is cleared; any other is left alone. -/
def Timer.check (t : Timer) : Timer :=
  if t.value ≠ 0 ∧ t.due = true then ⟨t.value - 1, false⟩ else t

/-- Setting a timer clears its due bit. -/
def Timer.set (_ : Timer) (a : Byte) : Timer := ⟨a, false⟩

/-- Time passes: the bit may be set, and is never cleared. -/
def Timer.pass (t : Timer) (due : Bool) : Timer := ⟨t.value, t.due || due⟩

/-- `TimerCheck()`, on both timers independently. -/
def State.timerCheck (s : State) : State := { s with dt := s.dt.check, st := s.st.check }

/-! ### Fetch (20_memory.md R90, R91) -/

/-- `Fetch(pc)`: the alignment check, the range check, then the two bytes, big-endian. -/
def State.fetch (s : State) : Except FaultCause Word :=
  if s.pc.toNat % 2 = 1 then .error .pcMisaligned
  else if 0xFFF < s.pc.toNat + 1 then .error .fetchOutOfRange
  else .ok (s.byte s.pc.toNat ++ s.byte (s.pc.toNat + 1))

end Sys2Proof.Machine
end

