-- ==== Sys2Proof/Machine/Operands.lean ====
section
/-!
DEFINITION. Every operand form: immediates (30_encoding.md R124), the index register with an implicit offset
(42_index_memory.md R248), the register block of Fx55 and Fx65, the glyph address, the decimal digits, the
sprite's pixels (43_display.md R292, R293, R295) and the key matrix (44_keys_timers.md R320, R324).
-/

namespace Sys2Proof.Machine

/-- `V[x]`. -/
def State.getV (s : State) (x : RegIx) : Byte := s.v[x.val]

/-- `zext_16(nnn)` (30_encoding.md R124). -/
def zextAddr (nnn : Addr12) : Word := nnn.setWidth 16

/-- `zext_16(nnn) + zext_16(V[0])`, at most 0x10FE, so exact (40_control_flow.md R172). -/
def indexedTarget (nnn : Addr12) (v0 : Byte) : Word := nnn.setWidth 16 + v0.setWidth 16

/-- The exact sum `I + a` of Fx1E (42_index_memory.md R252). -/
def indexSum (i : Word) (a : Byte) : Nat := i.toNat + a.toNat

/-- `a * 5`, in 0..1275, of Fx29: the glyph address, `a` not masked (42_index_memory.md R253). -/
def glyphAddress (a : Byte) : Word := BitVec.ofNat 16 (a.toNat * 5)

/-- Hundreds, tens and ones of Fx33 (42_index_memory.md R254). -/
def bcdDigits (a : Byte) : List Byte :=
  [BitVec.ofNat 8 (a.toNat / 100), BitVec.ofNat 8 (a.toNat / 10 % 10), BitVec.ofNat 8 (a.toNat % 10)]

/-- `V[0], V[1], ..., V[x]` of Fx55 (42_index_memory.md R255). -/
def regBlock (v : Vector Byte 16) (x : RegIx) : List Byte := v.toList.take (x.val + 1)

/-- `MemRead(I, n)`: `none` is AddressOutOfRange (20_memory.md R84). -/
def State.memRead (s : State) (n : Nat) : Option (List Byte) :=
  if inRange s.i.toNat n then some (s.loadBytes s.i.toNat n) else none

/-- `MemWrite(I, n, bytes)`: the whole range is checked first; `none` is AddressOutOfRange (20_memory.md R85). -/
def State.memWrite (s : State) (bytes : List Byte) : Option State :=
  if inRange s.i.toNat bytes.length then some { s with mem := s.storeBytes s.i.toNat bytes }
  else none

/-! ### Sprites (43_display.md R292, R293) -/

/-- The origin's column, `V[x] mod 64`. -/
def originCol (a : Byte) : Nat := a.toNat % 64

/-- The origin's row, `V[y] mod 32`. -/
def originRow (b : Byte) : Nat := b.toNat % 32

/-- Toggle one pixel inside the grid and report a hit when it was on; outside the grid do nothing (R295). -/
def drawPixel (row col : Nat) (d : Frame × Bool) : Frame × Bool :=
  if h : row < 32 ∧ col < 64 then
    (d.1.set row ((d.1[row]'h.1).set col (!(d.1[row]'h.1)[col]'h.2) h.2) h.1, d.2 || (d.1[row]'h.1)[col]'h.2)
  else d

/-- One sprite row: bit 7 - c of the byte lands in column `x0 + c`. -/
def drawRow (row x0 : Nat) (bits : Byte) (d : Frame × Bool) : Frame × Bool :=
  (List.range 8).foldl (fun d c => if bits.getLsbD (7 - c) then drawPixel row (x0 + c) d else d) d

/-- The sprite's rows from `row` down. -/
def drawRows (row x0 : Nat) : List Byte → Frame × Bool → Frame × Bool
  | [], d => d
  | bits :: rest, d => drawRows (row + 1) x0 rest (drawRow row x0 bits d)

/-! ### Keys -/

/-- `KeyRead(k)`: `none` is KeyIndexOutOfRange (44_keys_timers.md R320). -/
def State.keyRead (s : State) (k : Byte) : Option Bool := s.keys[k.toNat]?

/-- The highest pressed key, if any (44_keys_timers.md R324). -/
def highestKey (keys : Vector Bool 16) : Option (Fin 16) :=
  (List.finRange 16).reverse.find? fun k => keys[k.val]

end Sys2Proof.Machine
end

