-- ==== Sys2Proof/Machine/Alu.lean ====
section
/-!
DEFINITION. Register and ALU instructions: 41_alu.md. Operands are read before anything is written (R200); the
five flag instructions write the result first and VF second, so VF keeps the flag when x = F (R201).
-/

namespace Sys2Proof.Machine

/-- Write `V[x]`, then advance (R200). -/
def State.writeResult (s : State) (x : RegIx) (b : Byte) : State := (s.setV x b).advance

/-- Write `V[x]`, then VF, then advance (R201). -/
def State.writeResultFlag (s : State) (x : RegIx) (b flag : Byte) : State := ((s.setV x b).setFlag flag).advance

/-- 6xkk LD Vx, kk (R202). -/
def execLdImm (x : RegIx) (kk : Byte) (s : State) : Result := .next (s.writeResult x kk)

/-- 7xkk ADD Vx, kk (R203): no carry flag. -/
def execAddImm (x : RegIx) (kk : Byte) (s : State) : Result := .next (s.writeResult x (s.getV x + kk))

/-- 8xy0 LD Vx, Vy (R204). -/
def execLdReg (x y : RegIx) (s : State) : Result := .next (s.writeResult x (s.getV y))

/-- 8xy1 OR Vx, Vy (R205). -/
def execOrReg (x y : RegIx) (s : State) : Result := .next (s.writeResult x (s.getV x ||| s.getV y))

/-- 8xy2 AND Vx, Vy (R206). -/
def execAndReg (x y : RegIx) (s : State) : Result := .next (s.writeResult x (s.getV x &&& s.getV y))

/-- 8xy3 XOR Vx, Vy (R207). -/
def execXorReg (x y : RegIx) (s : State) : Result := .next (s.writeResult x (s.getV x ^^^ s.getV y))

/-- 8xy4 ADD Vx, Vy (R208). -/
def execAddReg (x y : RegIx) (s : State) : Result :=
  .next (s.writeResultFlag x (s.getV x + s.getV y) (carryFlag (s.getV x) (s.getV y)))

/-- 8xy5 SUB Vx, Vy (R209). -/
def execSub (x y : RegIx) (s : State) : Result :=
  .next (s.writeResultFlag x (s.getV x - s.getV y) (noBorrowFlag (s.getV x) (s.getV y)))

/-- 8xy6 SHR Vx {, Vy} (R210): y is ignored. -/
def execShr (x _y : RegIx) (s : State) : Result :=
  .next (s.writeResultFlag x (s.getV x >>> 1) (lowBitFlag (s.getV x)))

/-- 8xy7 SUBN Vx, Vy (R211). -/
def execSubn (x y : RegIx) (s : State) : Result :=
  .next (s.writeResultFlag x (s.getV y - s.getV x) (noBorrowFlag (s.getV y) (s.getV x)))

/-- 8xyE SHL Vx {, Vy} (R212): y is ignored. -/
def execShl (x _y : RegIx) (s : State) : Result :=
  .next (s.writeResultFlag x (s.getV x <<< 1) (highBitFlag (s.getV x)))

/-- Cxkk RND Vx, kk (R224): the draw is a free byte, a new one for each execution (log 3). -/
def execRnd (x : RegIx) (kk : Byte) (s : State) : Result :=
  .next { s.writeResult x (Config.rand s.draws &&& kk) with draws := s.draws + 1 }

end Sys2Proof.Machine
end

