-- ==== Sys2Proof/Machine/Control.lean ====
section
/-!
DEFINITION. Control transfer: 40_control_flow.md. No transfer checks its target (R174); a bad target faults at
the next fetch.
-/

namespace Sys2Proof.Machine

/-- 00EE RET (R161): resume two bytes after the popped entry. -/
def execRet (s : State) : Result :=
  match s.pop with
  | none => raise .stackUnderflow (some (encode .ret)) s
  | some (r, t) => .next { t with pc := r + 2 }

/-- 1nnn JP nnn (R162). -/
def execJp (nnn : Addr12) (s : State) : Result := .next { s with pc := zextAddr nnn }

/-- 2nnn CALL nnn (R163): push the call's own address. -/
def execCall (nnn : Addr12) (s : State) : Result :=
  match s.push s.pc with
  | none => raise .stackOverflow (some (encode (.call nnn))) s
  | some t => .next { t with pc := zextAddr nnn }

/-- 3xkk SE Vx, kk (R165). -/
def execSeImm (x : RegIx) (kk : Byte) (s : State) : Result := .next (s.skip (s.getV x == kk))

/-- 4xkk SNE Vx, kk (R166). -/
def execSneImm (x : RegIx) (kk : Byte) (s : State) : Result := .next (s.skip (s.getV x != kk))

/-- 5xy0 SE Vx, Vy (R167). -/
def execSeReg (x y : RegIx) (s : State) : Result := .next (s.skip (s.getV x == s.getV y))

/-- 9xy0 SNE Vx, Vy (R168). -/
def execSneReg (x y : RegIx) (s : State) : Result := .next (s.skip (s.getV x != s.getV y))

/-- Bnnn JP V0, nnn (R172). -/
def execJpV0 (nnn : Addr12) (s : State) : Result := .next { s with pc := indexedTarget nnn (s.getV 0) }

end Sys2Proof.Machine
end

