-- ==== Sys2Proof/Machine/Display.lean ====
section
/-!
DEFINITION. Framebuffer instructions: 43_display.md.
-/

namespace Sys2Proof.Machine

/-- 00E0 CLS (R290): redraw is set even when the framebuffer was already clear. -/
def execCls (s : State) : Result := .next { s.advance with fb := blankFrame, redraw := true }

/-- The framebuffer and the hit bit after a sprite is drawn from a frame (R293). -/
def drawSprite (fb : Frame) (a b : Byte) (sprite : List Byte) : Frame × Bool :=
  drawRows (originRow b) (originCol a) sprite (fb, false)

/-- Dxyn DRW Vx, Vy, n (R293): the sprite and the coordinates are read before anything is written; VF and redraw
are always written. -/
def execDrw (x y : RegIx) (n : Height) (s : State) : Result :=
  match s.memRead n.val with
  | none => raise .addressOutOfRange (some (encode (.drw x y n))) s
  | some sprite =>
    .next { (s.setFlag (collisionFlag (drawSprite s.fb (s.getV x) (s.getV y) sprite).2)).advance with
      fb := (drawSprite s.fb (s.getV x) (s.getV y) sprite).1, redraw := true }

end Sys2Proof.Machine
end

