-- ==== Sys2Proof/Machine/IndexMemory.lean ====
section
/-!
DEFINITION. Index register, loads and stores: 42_index_memory.md. Each instruction ends with `pc <- pc0 + 2`,
none writes VF as a flag, and no access changes I (R248).
-/

namespace Sys2Proof.Machine

/-- Annn LD I, nnn (R250). -/
def execLdI (nnn : Addr12) (s : State) : Result := .next { s.advance with i := zextAddr nnn }

/-- Fx1E ADD I, Vx (R252): IndexOverflow when the exact sum passes 0xFFFF; VF is not written. -/
def execAddIVx (x : RegIx) (s : State) : Result :=
  if 0xFFFF < indexSum s.i (s.getV x) then raise .indexOverflow (some (encode (.addIVx x))) s
  else .next { s.advance with i := BitVec.ofNat 16 (indexSum s.i (s.getV x)) }

/-- Fx29 LD F, Vx (R253). -/
def execLdFVx (x : RegIx) (s : State) : Result := .next { s.advance with i := glyphAddress (s.getV x) }

/-- Fx33 LD B, Vx (R254). -/
def execLdBVx (x : RegIx) (s : State) : Result :=
  match s.memWrite (bcdDigits (s.getV x)) with
  | none => raise .addressOutOfRange (some (encode (.ldBVx x))) s
  | some t => .next t.advance

/-- Fx55 LD [I], Vx (R255). -/
def execLdMemVx (x : RegIx) (s : State) : Result :=
  match s.memWrite (regBlock s.v x) with
  | none => raise .addressOutOfRange (some (encode (.ldMemVx x))) s
  | some t => .next t.advance

/-- Fx65 LD Vx, [I] (R256). -/
def execLdVxMem (x : RegIx) (s : State) : Result :=
  match s.memRead (x.val + 1) with
  | none => raise .addressOutOfRange (some (encode (.ldVxMem x))) s
  | some bytes => .next { s.advance with v := fillV s.v 0 bytes }

end Sys2Proof.Machine
end

