-- ==== Sys2Proof/Machine/KeysTimers.lean ====
section
/-!
DEFINITION. Key-matrix and timer instructions: 44_keys_timers.md.
-/

namespace Sys2Proof.Machine

/-- Ex9E SKP Vx (R321). -/
def execSkp (x : RegIx) (s : State) : Result :=
  match s.keyRead (s.getV x) with
  | none => raise .keyIndexOutOfRange (some (encode (.skp x))) s
  | some pressed => .next (s.skip pressed)

/-- ExA1 SKNP Vx (R322). -/
def execSknp (x : RegIx) (s : State) : Result :=
  match s.keyRead (s.getV x) with
  | none => raise .keyIndexOutOfRange (some (encode (.sknp x))) s
  | some pressed => .next (s.skip !pressed)

/-- Fx07 LD Vx, DT (R323). -/
def execLdVxDt (x : RegIx) (s : State) : Result := .next (s.setV x s.dt.value).advance

/-- Fx0A LD Vx, K (R324): the highest pressed key, or nothing at all changes and the instruction runs again. -/
def execLdVxK (x : RegIx) (s : State) : Result :=
  match highestKey s.keys with
  | some k => .next (s.setV x (BitVec.ofNat 8 k.val)).advance
  | none => .next s

/-- Fx15 LD DT, Vx (R325). -/
def execLdDtVx (x : RegIx) (s : State) : Result := .next { s.advance with dt := s.dt.set (s.getV x) }

/-- Fx18 LD ST, Vx (R326). -/
def execLdStVx (x : RegIx) (s : State) : Result := .next { s.advance with st := s.st.set (s.getV x) }

end Sys2Proof.Machine
end

