-- ==== Sys2Proof/Machine/Cycle.lean ====
section
/-!
DEFINITION. One cycle: fetch, decode, execute, timer check (30_encoding.md R136; 60_exceptions.md R352, R354,
R356, R370).
-/

namespace Sys2Proof.Machine

/-- The end of a cycle: `TimerCheck()` when the execute phase left the core Running; a fault skips it (R352). -/
def endCycle : Result → Result
  | .next t =>
    match t.run with
    | .running => .next t.timerCheck
    | .faulted _ => .next t
  | .fault f => .fault f
  | .refused r => .refused r

/-- Decode and execute a fetched word; an illegal word raises UnknownOpcode (30_encoding.md R131). -/
def runWord (w : Word) (s : State) : Result :=
  match decode w with
  | none => raise .unknownOpcode (some w) s
  | some i => endCycle (exec i s)

/-- `Cycle()`. A Faulted core takes no cycle (60_exceptions.md R356; 93_implementation_defined.md U17). -/
def cycle (s : State) : Result :=
  match s.run with
  | .faulted r => .refused (.coreFaulted r)
  | .running =>
    match s.fetch with
    | .error cause => raise cause none s
    | .ok w => runWord w s

end Sys2Proof.Machine
end

