-- ==== Sys2Proof/WellFormed.lean ====
section
/-!
DEFINITION. What may be handed to the machine. The operand types of `Instr` are exactly the field
widths of 30_encoding.md R121 (`Fin 16`, `BitVec 8`, `BitVec 12`), so an out-of-range operand cannot be
written down: `Instr.wellFormed` states the ranges and holds of every term (Laws/Encoding.lean). The one
value that comes from outside with a bound its type does not carry is a program's length.
-/

namespace Sys2Proof

/-- A register index or a height is 0 to 15 (30_encoding.md R121, R124, R125). -/
def nibbleInRange (k : Fin 16) : Bool := k.val < 16

/-- kk is an unsigned 8-bit value (30_encoding.md R124). -/
def byteInRange (kk : Byte) : Bool := kk.toNat < 256

/-- nnn is an unsigned 12-bit value (30_encoding.md R124). -/
def addrInRange (nnn : Addr12) : Bool := nnn.toNat < 4096

/-- Every operand lies in the range its field has (30_encoding.md R121, R124). -/
def Instr.wellFormed : Instr → Bool
  | .cls | .ret => true
  | .jp nnn | .call nnn | .ldI nnn | .jpV0 nnn => addrInRange nnn
  | .seImm x kk | .sneImm x kk | .ldImm x kk | .addImm x kk | .rnd x kk => nibbleInRange x && byteInRange kk
  | .seReg x y | .ldReg x y | .orReg x y | .andReg x y | .xorReg x y | .addReg x y | .sub x y | .shr x y
  | .subn x y | .shl x y | .sneReg x y => nibbleInRange x && nibbleInRange y
  | .drw x y n => nibbleInRange x && nibbleInRange y && nibbleInRange n
  | .skp x | .sknp x | .ldVxDt x | .ldVxK x | .ldDtVx x | .ldStVx x | .addIVx x | .ldFVx x | .ldBVx x
  | .ldMemVx x | .ldVxMem x => nibbleInRange x

/-- The host may launch a program of at most 3584 bytes; a longer one is refused, never truncated
(70_reset_and_hazards.md R430; 92_eei_decisions.md D26). -/
def programFits (program : List Byte) : Bool := program.length ≤ Config.maxProgramLength

end Sys2Proof
end

