-- ==== Sys2Proof/Machine/HostPort.lean ====
section
/-!
DEFINITION. What the host can do to the core between two cycles, and what it can read (60_exceptions.md section 5;
70_reset_and_hazards.md section 2). It has no other move (10_state.md R65, 60_exceptions.md R389).
-/

namespace Sys2Proof.Machine

/-- Time passes: due bits may be set; in the Faulted state nothing changes (60_exceptions.md R356, R372). -/
def State.timePasses (s : State) (dt st : Bool) : State :=
  match s.run with
  | .running => { s with dt := s.dt.pass dt, st := s.st.pass st }
  | .faulted _ => s

/-- `KeyWrite(k, pressed)` (60_exceptions.md R384). -/
def State.keyWrite (s : State) (k : Fin 16) (pressed : Bool) : State :=
  { s with keys := s.keys.set k.val pressed }

/-- `PeekFrame()`: the framebuffer and the redraw flag, with no change of state (60_exceptions.md R386). -/
def State.peekFrame (s : State) : Frame × Bool := (s.fb, s.redraw)

/-- `ConsumeFrame()`: the snapshot, and the state with redraw cleared (60_exceptions.md R386). -/
def State.consumeFrame (s : State) : (Frame × Bool) × State := (s.peekFrame, { s with redraw := false })

/-- The sound output, `st != 0` (60_exceptions.md R374). -/
def State.soundActive (s : State) : Bool := s.st.value != 0

/-- The fault record the host may read (60_exceptions.md R353, R388). -/
def State.faultRecord (s : State) : Option FaultRecord :=
  match s.run with
  | .running => none
  | .faulted r => some r

/-- Program load: the bytes from 0x200 up (70_reset_and_hazards.md R430). -/
def State.loadProgram (s : State) (program : List Byte) : State :=
  { s with mem := s.storeBytes Config.programBase program }

/-- Reset, then load; no program means the default one, and one that does not fit is refused
(70_reset_and_hazards.md R420, R430, R431). FONT is the machine's; the model's own two fields carry on. -/
def launch (program : Option (List Byte)) (s : State) : Result :=
  if programFits (program.getD Config.defaultProgram) then
    .next { (State.resetWith s.font).loadProgram (program.getD Config.defaultProgram) with
      draws := s.draws
      schedule := s.schedule }
  else .refused .programTooLong

/-- Do one action. -/
def perform (a : Action) (s : State) : Result :=
  match a with
  | .cycle => cycle s
  | .timePasses dt st => .next (s.timePasses dt st)
  | .keyWrite k pressed => .next (s.keyWrite k pressed)
  | .consumeFrame => .next s.consumeFrame.2
  | .launch program => launch program s

/-- The action that comes next, and the state with it taken off the schedule; an empty schedule stands for a
cycle request (60_exceptions.md R380; log 4). -/
def State.nextAction (s : State) : Action × State :=
  match s.schedule with
  | [] => (.cycle, s)
  | a :: rest => (a, { s with schedule := rest })

/-- Where the next fetch reads, when it can: an even `pc` at most 0xFFE (20_memory.md R90, R91). -/
def State.fetchable (s : State) : Bool := s.pc.toNat % 2 == 0 && s.pc.toNat ≤ 0xFFE

/-- Make the very next step fetch these two bytes: they are stored at `pc` (at the reset `pc` when `pc` cannot be
fetched from), the core is Running, and the next action is a cycle. -/
def State.placeWord (s : State) (hi lo : Byte) : State :=
  let base : Word := if s.fetchable then s.pc else 0x200
  { s with
    pc := base
    mem := s.storeBytes base.toNat [hi, lo]
    run := .running
    schedule := [] }

end Sys2Proof.Machine
end

