-- ==== Sys2Proof/Machine/Step.lean ====
section
/-!
DEFINITION. One step: the next action of the schedule is done (20_memory.md R105; 60_exceptions.md R389).
-/

namespace Sys2Proof.Machine

/-- One step of the core and its host: a cycle, or a host operation between two cycles. -/
def step (s : State) : Host.Outcome State Fault Refusal := perform s.nextAction.1 s.nextAction.2

/-- `s` with the instruction whose table bits are `w` placed where the next step fetches (log 9). -/
def State.withFetchWord (s : State) (nbits w : Nat) : State :=
  s.placeWord (tableWordBytes nbits w).1 (tableWordBytes nbits w).2

end Sys2Proof.Machine
end

