-- ==== Sys2Proof/Machine/Timed.lean ====
section
/-!
DEFINITION. The timed form of one timer (10_state.md R50; 60_exceptions.md R370-R373): its counter and the wall-clock
time since it was last decremented or set. The machine's State holds the untimed form; `TimedTimer.untimed` maps
the one to the other. The period is an argument (00_scope.md R5), in the unit of `elapsed`.
-/

namespace Sys2Proof.Machine

/-- A timer with its elapsed time (10_state.md R50). -/
structure TimedTimer where
  value : Byte
  elapsed : Nat
  deriving DecidableEq, Repr

/-- A timer at VM start: value 0, and the elapsed time starts at 0 (70_reset_and_hazards.md R426). -/
def TimedTimer.reset : TimedTimer := ⟨0, 0⟩

/-- `T_due` means `T_elapsed >= TIMER_PERIOD` (60_exceptions.md R372). -/
def TimedTimer.isDue (period : Nat) (t : TimedTimer) : Bool := period ≤ t.elapsed

/-- The untimed form of a timer (10_state.md R52). -/
def TimedTimer.untimed (period : Nat) (t : TimedTimer) : Timer := ⟨t.value, t.isDue period⟩

/-- The timer check in its timed form (60_exceptions.md R370). -/
def TimedTimer.check (period : Nat) (t : TimedTimer) : TimedTimer :=
  if t.value ≠ 0 ∧ period ≤ t.elapsed then ⟨t.value - 1, 0⟩ else t

/-- Fx15 or Fx18 in its timed form: the elapsed time restarts (44_keys_timers.md R325, R326). -/
def TimedTimer.set (_ : TimedTimer) (a : Byte) : TimedTimer := ⟨a, 0⟩

/-- The elapsed time grows with wall-clock time, whether or not cycles execute (10_state.md R50). -/
def TimedTimer.pass (t : TimedTimer) (d : Nat) : TimedTimer := ⟨t.value, t.elapsed + d⟩

end Sys2Proof.Machine
end

