-- ==== Sys2Proof/Safety.lean ====
section
/-!
DEFINITION. The terms the claims use: safe cycles, the machine's invariant, what an instruction may write, and the
frame predicates.
-/

namespace Sys2Proof.Machine

/-! ### Frames: what is the same in two states -/

/-- Every register that `changed` does not name is the same. -/
def KeepsRegs (changed : RegIx → Prop) (s t : State) : Prop := ∀ r, ¬ changed r → t.getV r = s.getV r

/-- FONT and every byte of memory, read one byte at a time, are the same. -/
def SameMemory (s t : State) : Prop := t.font = s.font ∧ ∀ a, t.byte a = s.byte a

/-- FONT and every byte of memory outside `a .. a+n-1` are the same. -/
def SameMemoryOutside (a n : Nat) (s t : State) : Prop :=
  t.font = s.font ∧ ∀ b, (b < a ∨ a + n ≤ b) → t.byte b = s.byte b

/-- The index register is the same. -/
def SameIndex (s t : State) : Prop := t.i = s.i

/-- The call stack, its entries and its depth, is the same. -/
def SameStack (s t : State) : Prop := t.stack = s.stack ∧ t.sp = s.sp

/-- Both timers, counters and due bits, are the same. -/
def SameTimers (s t : State) : Prop := t.dt = s.dt ∧ t.st = s.st

/-- The key matrix is the same. -/
def SameKeys (s t : State) : Prop := t.keys = s.keys

/-- The framebuffer and the redraw flag are the same. -/
def SameDisplay (s t : State) : Prop := t.fb = s.fb ∧ t.redraw = s.redraw

/-- The run state is the same. -/
def SameRun (s t : State) : Prop := t.run = s.run

/-- The model's own two fields are the same. -/
def SameModel (s t : State) : Prop := t.draws = s.draws ∧ t.schedule = s.schedule

/-- Nothing but V0-VF and `pc` may differ: no other register, no timer, key, pixel, byte of memory, stack entry. -/
def OnlyRegsAndPc (s t : State) : Prop :=
  SameIndex s t ∧ SameStack s t ∧ SameTimers s t ∧ SameKeys s t ∧ SameDisplay s t ∧ SameMemory s t ∧
    SameRun s t ∧ SameModel s t

/-- Nothing but the index register and `pc` may differ. -/
def OnlyIndexAndPc (s t : State) : Prop :=
  KeepsRegs (fun _ => False) s t ∧ SameStack s t ∧ SameTimers s t ∧ SameKeys s t ∧ SameDisplay s t ∧
    SameMemory s t ∧ SameRun s t ∧ SameModel s t

/-- Nothing but `n` bytes of memory from `a` up and `pc` may differ. -/
def OnlyBytesAndPc (a n : Nat) (s t : State) : Prop :=
  KeepsRegs (fun _ => False) s t ∧ SameIndex s t ∧ SameStack s t ∧ SameTimers s t ∧ SameKeys s t ∧
    SameDisplay s t ∧ SameMemoryOutside a n s t ∧ SameRun s t ∧ SameModel s t

/-- Nothing but VF, the framebuffer, redraw and `pc` may differ. -/
def OnlyDisplayFlagAndPc (s t : State) : Prop :=
  KeepsRegs (fun r => r = 15) s t ∧ SameIndex s t ∧ SameStack s t ∧ SameTimers s t ∧ SameKeys s t ∧
    SameMemory s t ∧ SameRun s t ∧ SameModel s t

/-- Nothing but the call stack and `pc` may differ. -/
def OnlyStackAndPc (s t : State) : Prop :=
  KeepsRegs (fun _ => False) s t ∧ SameIndex s t ∧ SameTimers s t ∧ SameKeys s t ∧ SameDisplay s t ∧
    SameMemory s t ∧ SameRun s t ∧ SameModel s t

/-- Nothing but the timers and `pc` may differ. -/
def OnlyTimersAndPc (s t : State) : Prop :=
  KeepsRegs (fun _ => False) s t ∧ SameIndex s t ∧ SameStack s t ∧ SameKeys s t ∧ SameDisplay s t ∧
    SameMemory s t ∧ SameRun s t ∧ SameModel s t

/-- Nothing but `pc` may differ. -/
def OnlyPc (s t : State) : Prop := KeepsRegs (fun _ => False) s t ∧ OnlyRegsAndPc s t

/-! ### Sprites -/

/-- The sprite at (`row`, `x0`) has a set bit at pixel (`r`, `c`): row r - row of the sprite, bit 7 - (c - x0) of its
byte (43_display.md R292). -/
def spriteBit (row x0 : Nat) (sprite : List Byte) (r c : Nat) : Bool :=
  decide (row ≤ r ∧ r < row + sprite.length ∧ x0 ≤ c ∧ c < x0 + 8) &&
    (sprite.getD (r - row) 0).getLsbD (7 - (c - x0))

/-- The sprite Dxyn draws in this state covers pixel (`r`, `c`) with a set bit (43_display.md R292, R293). -/
def State.spriteAt (s : State) (x y : RegIx) (n : Height) (r c : Nat) : Bool :=
  spriteBit ((s.getV y).toNat % 32) ((s.getV x).toNat % 64) (s.loadBytes s.i.toNat n.val) r c

/-- `n` bytes from `a` up lie inside 0x000-0xFFF; no byte needs nothing (20_memory.md R84). -/
def InsideMemory (a n : Nat) : Prop := n = 0 ∨ a + n - 1 ≤ 0xFFF

end Sys2Proof.Machine

namespace Sys2Proof

open Sys2Proof.Machine

/-! ### Which register an instruction may write (the table of 10_state.md R32) -/

/-- `i` may write register `r`. -/
def Instr.writes : Instr → RegIx → Prop
  | .cls, _ | .ret, _ | .jp _, _ | .call _, _ | .ldI _, _ => False
  | .seImm _ _, _ | .sneImm _ _, _ | .seReg _ _, _ | .sneReg _ _, _ | .jpV0 _, _ => False
  | .ldImm x _, r | .addImm x _, r | .rnd x _, r => r = x
  | .ldReg x _, r | .orReg x _, r | .andReg x _, r | .xorReg x _, r => r = x
  | .addReg x _, r | .sub x _, r | .shr x _, r | .subn x _, r | .shl x _, r => r = x ∨ r = 15
  | .drw _ _ _, r => r = 15
  | .skp _, _ | .sknp _, _ => False
  | .ldVxDt x, r | .ldVxK x, r => r = x
  | .ldDtVx _, _ | .ldStVx _, _ | .addIVx _, _ | .ldFVx _, _ | .ldBVx _, _ | .ldMemVx _, _ => False
  | .ldVxMem x, r => r ≤ x

/-! ### Each instruction's own check (60_exceptions.md R350, R354) -/

/-- The instruction's own check passes: what R442 asks of a program, instruction by instruction. -/
def Instr.okIn : Instr → State → Prop
  | .ret, s => 0 < s.sp.val
  | .call _, s => s.sp.val < 16
  | .drw _ _ n, s => InsideMemory s.i.toNat n.val
  | .skp x, s | .sknp x, s => (s.getV x).toNat ≤ 15
  | .addIVx x, s => s.i.toNat + (s.getV x).toNat ≤ 0xFFFF
  | .ldBVx _, s => InsideMemory s.i.toNat 3
  | .ldMemVx x, s | .ldVxMem x, s => InsideMemory s.i.toNat (x.val + 1)
  | .cls, _ | .jp _, _ | .seImm _ _, _ | .sneImm _ _, _ | .seReg _ _, _ | .sneReg _ _, _ | .jpV0 _, _ => True
  | .ldImm _ _, _ | .addImm _ _, _ | .ldReg _ _, _ | .orReg _ _, _ | .andReg _ _, _ | .xorReg _ _, _ => True
  | .addReg _ _, _ | .sub _ _, _ | .shr _ _, _ | .subn _ _, _ | .shl _ _, _ | .rnd _ _, _ | .ldI _, _ => True
  | .ldVxDt _, _ | .ldVxK _, _ | .ldDtVx _, _ | .ldStVx _, _ | .ldFVx _, _ => True

/-- The one cause an instruction's own check can raise, if it has a check (60_exceptions.md R354). -/
def Instr.ownFault : Instr → Option FaultCause
  | .ret => some .stackUnderflow
  | .call _ => some .stackOverflow
  | .drw _ _ _ | .ldBVx _ | .ldMemVx _ | .ldVxMem _ => some .addressOutOfRange
  | .skp _ | .sknp _ => some .keyIndexOutOfRange
  | .addIVx _ => some .indexOverflow
  | .cls | .jp _ | .seImm _ _ | .sneImm _ _ | .seReg _ _ | .sneReg _ _ | .jpV0 _ => none
  | .ldImm _ _ | .addImm _ _ | .ldReg _ _ | .orReg _ _ | .andReg _ _ | .xorReg _ _ => none
  | .addReg _ _ | .sub _ _ | .shr _ _ | .subn _ _ | .shl _ _ | .rnd _ _ | .ldI _ => none
  | .ldVxDt _ | .ldVxK _ | .ldDtVx _ | .ldStVx _ | .ldFVx _ => none

end Sys2Proof

namespace Sys2Proof.Machine

/-! ### Safe cycles (60_exceptions.md R350, 70_reset_and_hazards.md R442) -/

/-- The state a fault leaves: the same one, Faulted with the record (60_exceptions.md R352). -/
def State.faultedWith (s : State) (c : FaultCause) (w : Option Word) : State :=
  { s with run := .faulted ⟨c, s.pc, w⟩ }

/-- A step is safe when it answers a next state that is Running. -/
def SafeStep (s : State) : Prop := ∃ t, step s = .next t ∧ t.run = .running

/-- `pc` can be fetched from: even and at most 0xFFE (20_memory.md R90, R91). -/
def PcFetchable (s : State) : Prop := s.pc.toNat % 2 = 0 ∧ s.pc.toNat ≤ 0xFFE

/-- The instruction word at `pc`: the byte at `pc` high, the byte at `pc + 1` low (20_memory.md R90). -/
def State.wordAtPc (s : State) : Word :=
  bigEndian (s.byte s.pc.toNat) (s.byte (s.pc.toNat + 1))

/-! ### The invariant -/

/-- A fault record fits the state it stopped: `fault_pc` is `pc`; without a word the fetch failed with the cause; with
a word it is the word at `pc`, which is illegal, or whose instruction's own check fails with the cause (10_state.md
R61; 60_exceptions.md R350, R354). -/
def FaultRecord.Fits (r : FaultRecord) (s : State) : Prop :=
  r.pc = s.pc ∧
    match r.word with
    | none => s.fetch = .error r.cause
    | some w => s.fetch = .ok w ∧
      ((decode w = none ∧ r.cause = .unknownOpcode) ∨
        ∃ i, decode w = some i ∧ i.ownFault = some r.cause ∧ ¬ i.okIn s)

/-- What every reachable state has: canonical memory; `pc` at most 0x10FE (10_state.md R36); live stack entries
that are addresses of fetched CALLs, even and at most 0xFFE (R42, 40_control_flow.md R161); a record that fits. -/
structure State.Inv (s : State) : Prop where
  memory : Memory.wf s.font s.mem
  pc : s.pc.toNat ≤ 0x10FE
  stack : ∀ (k : Nat) (h : k < 16), k < s.sp.val → s.stack[k].toNat % 2 = 0 ∧ s.stack[k].toNat ≤ 0xFFE
  record : ∀ r, s.run = .faulted r → r.Fits s

end Sys2Proof.Machine
end

