-- ==== Sys2Proof/Certificates/Slice0/Obligations.lean ====
section
/-!
DEFINITION. The statements for the provers, from the numbered rules of spec/. Each docstring names the rule it
formalises, and says which clause rests on a decision of the spec's own (92_eei_decisions.md) or on a log entry.
-/

open Sys2Proof Sys2Proof.Machine

/-! ### Encoding -/

/-- Words written out from the formats of 30_encoding.md R123 and the maps of R127 and R128 decode to the
instructions they stand for, and words of R131's table are illegal. -/
def Obligations.SampleWordsDecode : Prop :=
  decode 0b0000000011100000 = some .cls ∧ decode 0b0000000011101110 = some .ret ∧
  decode 0b0010101010111100 = some (.call 0xABC) ∧ decode 0b0011001100000111 = some (.seImm 3 0x07) ∧
  decode 0b0101000100100000 = some (.seReg 1 2) ∧ decode 0b1000010010100110 = some (.shr 4 10) ∧
  decode 0b1000000100101110 = some (.shl 1 2) ∧ decode 0b1011001100000000 = some (.jpV0 0x300) ∧
  decode 0b1100001100001111 = some (.rnd 3 0x0F) ∧ decode 0b1101000000010101 = some (.drw 0 1 5) ∧
  decode 0b1110000110011110 = some (.skp 1) ∧ decode 0b1111001000001010 = some (.ldVxK 2) ∧
  decode 0b1111000101010101 = some (.ldMemVx 1) ∧ decode 0b1111101000101001 = some (.ldFVx 10) ∧
  decode 0b0000000100100011 = none ∧ decode 0b0101000100100001 = none ∧ decode 0b1001000100101111 = none ∧
  decode 0b1000000100101000 = none ∧ decode 0b1110000110011111 = none ∧ decode 0b1111000011111111 = none

/-- Decoding and encoding agree in both directions, for every word and every instruction: a word decodes to an
instruction exactly when it is that instruction's word. So every operand at every value survives, and no two words
mean the same instruction (30_encoding.md R121, R123, R130). -/
def Obligations.DecodeAndEncodeAgree : Prop :=
  ∀ (w : Word) (i : Instr), decode w = some i ↔ encode i = w

/-- The decoder and the opcode table agree: a word is legal exactly when some row of opcode_table.json accepts it,
and then one row does, the row of the decoded instruction (30_encoding.md R130, "No two rows of opcode_table.json
match the same word"). -/
def Obligations.OneTableRowPerLegalWord : Prop :=
  ∀ w : Word,
    (∀ i, decode w = some i → ∀ r ∈ opcodeTable, (r.accepts w = true ↔ r.mnemonic = i.mnemonic)) ∧
    (∀ i, decode w = some i → ∃ r ∈ opcodeTable, r.mnemonic = i.mnemonic) ∧
    (decode w = none → ∀ r ∈ opcodeTable, r.accepts w = false)

/-- The illegal words are exactly those of the table of 30_encoding.md R131 (the spec's decision D7), field by field. -/
def Obligations.IllegalWordsAreTheTabledOnes : Prop :=
  ∀ w : Word, decode w = none ↔
    (topNibble w = 0x0 ∧ w ≠ 0x00E0 ∧ w ≠ 0x00EE) ∨
    (topNibble w = 0x5 ∧ fieldN w ≠ 0) ∨
    (topNibble w = 0x8 ∧ fieldN w ∈ ([8, 9, 10, 11, 12, 13, 15] : List (Fin 16))) ∨
    (topNibble w = 0x9 ∧ fieldN w ≠ 0) ∨
    (topNibble w = 0xE ∧ fieldKK w ∉ ([0x9E, 0xA1] : List Byte)) ∨
    (topNibble w = 0xF ∧
      fieldKK w ∉ ([0x07, 0x0A, 0x15, 0x18, 0x1E, 0x29, 0x33, 0x55, 0x65] : List Byte))

/-! ### The cycle and its faults -/

/-- A STEP RUNS THE DECODED INSTRUCTION (30_encoding.md R136). When the next action is a cycle (the schedule is
empty, or starts with a cycle request: log 4), the core is Running, `pc` can be fetched from and the two bytes there
decode to `i`, the step is `exec i` of that state, with the timer check after it when the core is still Running and
nothing after it when it faulted (60_exceptions.md R352). -/
def Obligations.StepRunsDecodedInstruction : Prop :=
  (∀ s : State, s.schedule = [] → s.nextAction = (.cycle, s)) ∧
  (∀ (s : State) (rest : List Action), s.schedule = .cycle :: rest →
    s.nextAction = (.cycle, { s with schedule := rest })) ∧
  ∀ (s s1 t : State) (i : Instr), s.nextAction = (.cycle, s1) → s1.run = .running → PcFetchable s1 →
    decodeBytes [s1.byte s1.pc.toNat, s1.byte (s1.pc.toNat + 1)] = .ok (i, []) →
    i.wellFormed = true → exec i s1 = .next t →
    step s = .next (if t.run = .running then t.timerCheck else t)

/-- The fetch assembles the word big-endian: "the byte at pc is bits 15:8 of w and the byte at pc+1 is bits 7:0"
(20_memory.md R90). -/
def Obligations.FetchIsBigEndian : Prop :=
  ∀ s : State, PcFetchable s → ∃ w, s.fetch = .ok w ∧ w = s.wordAtPc ∧
    w.extractLsb' 8 8 = s.byte s.pc.toNat ∧
    w.extractLsb' 0 8 = s.byte (s.pc.toNat + 1)

/-- The order of the fault checks of a cycle (60_exceptions.md R354; the spec's decisions D17, D32, D7): an odd `pc`,
then a `pc` above 0xFFE, then an illegal word, then the instruction's own check. Each leaves the state as it was, with
the record of 10_state.md R61 (D19): `fault_word` is none for the first two. -/
def Obligations.FaultChecksInOrder : Prop :=
  ∀ s s1 : State, s.nextAction = (.cycle, s1) → s1.run = .running →
    (s1.pc.toNat % 2 = 1 → step s = .next (s1.faultedWith .pcMisaligned none)) ∧
    (s1.pc.toNat % 2 = 0 → 0xFFE < s1.pc.toNat → step s = .next (s1.faultedWith .fetchOutOfRange none)) ∧
    (PcFetchable s1 → decode s1.wordAtPc = none →
      step s = .next (s1.faultedWith .unknownOpcode (some s1.wordAtPc))) ∧
    (∀ i, PcFetchable s1 → decode s1.wordAtPc = some i → ¬ i.okIn s1 →
      ∃ c, i.ownFault = some c ∧ step s = .next (s1.faultedWith c (some s1.wordAtPc)))

/-- Every instruction of a Running core completes or takes its own fault, and faults are precise: it stays Running
exactly when its own check passes (70_reset_and_hazards.md R442), and otherwise nothing but the run state changes
(60_exceptions.md R352; the spec's decisions D16, D19). -/
def Obligations.ExecFaultsPreciselyWhenItsCheckFails : Prop :=
  ∀ (i : Instr) (s : State), s.run = .running →
    ∃ t, exec i s = .next t ∧ (t.run = .running ↔ i.okIn s) ∧
      (¬ i.okIn s → ∃ c, i.ownFault = some c ∧ t = s.faultedWith c (some (encode i)))

/-- A program avoids every fatal fault exactly by keeping the invariants of 70_reset_and_hazards.md R442: a cycle of
a Running core is safe if and only if `pc` can be fetched from, the word there is legal, and the instruction's own
check passes. -/
def Obligations.CycleIsSafeExactlyUnderTheProgramInvariants : Prop :=
  ∀ s s1 : State, s.nextAction = (.cycle, s1) → s1.run = .running →
    (SafeStep s ↔ PcFetchable s1 ∧ ∃ i, decode s1.wordAtPc = some i ∧ i.okIn s1)

/-- A Faulted core takes no cycle: the request is refused, with the record (60_exceptions.md R356;
93_implementation_defined.md U17; log 7). -/
def Obligations.FaultedCoreTakesNoCycle : Prop :=
  ∀ (s s1 : State) (r : FaultRecord), s.nextAction = (.cycle, s1) → s1.run = .faulted r →
    step s = .refused (.coreFaulted r)

/-- Faulted is frozen: whatever a step short of a launch does to a Faulted core, only the key matrix, redraw and the
schedule can differ; the timers freeze and time passing changes nothing (60_exceptions.md R356, decision D19). -/
def Obligations.FaultedCoreIsFrozen : Prop :=
  ∀ (s t : State) (r : FaultRecord), s.run = .faulted r → (∀ p, s.nextAction.1 ≠ .launch p) → step s = .next t →
    t = { s with keys := t.keys, redraw := t.redraw, schedule := t.schedule } ∧
      (s.redraw = false → t.redraw = false)

/-! ### Invariants -/

/-- The invariant holds at reset. -/
def Obligations.ResetMeetsTheInvariant : Prop := State.reset.Inv

/-- Every step, whatever the host or the program does, keeps the invariant: canonical memory, `pc` at most 0x10FE
(10_state.md R36), live stack entries even and at most 0xFFE (R42, 40_control_flow.md R161), and a fault record that
names `pc` and the word there (R61). -/
def Obligations.StepKeepsTheInvariant : Prop :=
  ∀ s t : State, s.Inv → step s = .next t → t.Inv

/-! ### Reset -/

/-- Reset leaves `pc` at 0x200 (70_reset_and_hazards.md R421). -/
def Obligations.ResetPcIsProgramBase : Prop := State.reset.pc = 0x200

/-- The other reset values (70_reset_and_hazards.md R422-R429; the spec's decisions D2, D3, D4, D6; logs 2, 6):
registers, stack, timers, keys and pixels zero, off or released; Running; FONT at 0x000-0x04F whatever FONT is; with the
default FONT, each glyph at five times its digit. -/
def Obligations.ResetValuesAreTheDecidedOnes : Prop :=
  (∀ r, State.reset.getV r = 0) ∧ State.reset.i = 0 ∧ State.reset.sp = 0 ∧
  (∀ (k : Nat) (h : k < 16), State.reset.stack[k] = 0) ∧ State.reset.dt = ⟨0, false⟩ ∧ State.reset.st = ⟨0, false⟩ ∧
  (∀ (k : Nat) (h : k < 16), State.reset.keys[k] = false) ∧
  (∀ (r c : Nat) (hr : r < 32) (hc : c < 64), State.reset.fb[r][c] = false) ∧ State.reset.redraw = false ∧
  State.reset.run = .running ∧
  (∀ font : Font, State.resetWith font = { State.reset with font := font } ∧
    ∀ a (h : a < 80), (State.resetWith font).byte a = font[a]) ∧
  State.reset.loadBytes 0x00A 5 = [0xF0, 0x10, 0xF0, 0x80, 0xF0] ∧
  State.reset.loadBytes 0x04B 5 = [0xF0, 0x80, 0xF0, 0x80, 0x80]

/-! ### Control transfer -/

/-- 1nnn JP nnn (40_control_flow.md R162). The fault of an odd target, at the next fetch, is the spec's decisions D17
and D38. -/
def Obligations.JumpGoesToTheLiteral : Prop :=
  ∀ (nnn : Addr12) (s : State), decode (0x1#4 ++ nnn) = some (.jp nnn) ∧
    ∃ t, exec (.jp nnn) s = .next t ∧ t.pc = nnn.setWidth 16 ∧ OnlyPc s t ∧
      (nnn.toNat % 2 = 1 → t.fetch = .error .pcMisaligned)

/-- 2nnn CALL nnn (40_control_flow.md R163, 10_state.md R44): push `pc0`, jump; StackOverflow when sp = 16. The form of
the stack pointer is the spec's decision D29, the fault of an odd target D17 and D38. -/
def Obligations.CallPushesItsOwnAddress : Prop :=
  ∀ (nnn : Addr12) (s : State), decode (0x2#4 ++ nnn) = some (.call nnn) ∧
    (∀ h : s.sp.val < 16, ∃ t, exec (.call nnn) s = .next t ∧ t.pc = nnn.setWidth 16 ∧
      t.sp.val = s.sp.val + 1 ∧ t.stack[s.sp.val] = s.pc ∧
      (∀ (k : Nat) (hk : k < 16), k ≠ s.sp.val → t.stack[k] = s.stack[k]) ∧ OnlyStackAndPc s t ∧
      (nnn.toNat % 2 = 1 → t.fetch = .error .pcMisaligned)) ∧
    (s.sp.val = 16 → exec (.call nnn) s = .next (s.faultedWith .stackOverflow (some (0x2#4 ++ nnn))))

/-- 00EE RET (40_control_flow.md R161): pop, resume two bytes after the entry; StackUnderflow when sp = 0. Under the
machine's invariant the target is at most 0x1000. That a popped entry keeps its value is 10_state.md R45, of the spec's
decision D29; the precise fault is 60_exceptions.md R352, decision D16 (log 14). -/
def Obligations.ReturnResumesAfterThePoppedEntry : Prop :=
  ∀ s : State, decode 0x00EE = some .ret ∧
    (∀ h : 0 < s.sp.val, ∃ t, exec .ret s = .next t ∧ t.pc = s.stack[s.sp.val - 1] + 2 ∧
      t.sp.val = s.sp.val - 1 ∧ t.stack = s.stack ∧ OnlyStackAndPc s t ∧
      (s.Inv → t.pc.toNat = s.stack[s.sp.val - 1].toNat + 2 ∧ t.pc.toNat ≤ 0x1000)) ∧
    (s.sp.val = 0 → exec .ret s = .next (s.faultedWith .stackUnderflow (some 0x00EE)))

/-- A call pushes its own address and a return resumes one instruction width after it, so a return lands on the
instruction after the call (10_state.md R42): from any state that holds the call stack the call left. -/
def Obligations.ReturnLandsAfterTheCall : Prop :=
  ∀ (nnn : Addr12) (s u : State), s.sp.val < 16 →
    ∃ t, exec (.call nnn) s = .next t ∧
      (u.stack = t.stack → u.sp = t.sp → ∃ w, exec .ret u = .next w ∧ w.pc = s.pc + 2 ∧ w.sp = s.sp)

/-- The immediate skips 3xkk and 4xkk (40_control_flow.md R164, R165, R166): by 2, or by 4 when the condition holds;
nothing else changes. -/
def Obligations.ImmediateSkipsAdvanceByTwoOrFour : Prop :=
  ∀ (x : RegIx) (kk : Byte) (s : State),
    decode (0x3#4 ++ nibble x ++ kk) = some (.seImm x kk) ∧ decode (0x4#4 ++ nibble x ++ kk) = some (.sneImm x kk) ∧
    (∃ t, exec (.seImm x kk) s = .next t ∧
      t.pc = (if s.getV x = kk then s.pc + 4 else s.pc + 2) ∧ OnlyPc s t) ∧
    (∃ t, exec (.sneImm x kk) s = .next t ∧
      t.pc = (if s.getV x = kk then s.pc + 2 else s.pc + 4) ∧ OnlyPc s t)

/-- The register skips 5xy0 and 9xy0 (40_control_flow.md R164, R167, R168). -/
def Obligations.RegisterSkipsAdvanceByTwoOrFour : Prop :=
  ∀ (x y : RegIx) (s : State),
    decode (0x5#4 ++ nibble x ++ nibble y ++ 0x0#4) = some (.seReg x y) ∧
    decode (0x9#4 ++ nibble x ++ nibble y ++ 0x0#4) = some (.sneReg x y) ∧
    (∃ t, exec (.seReg x y) s = .next t ∧
      t.pc = (if s.getV x = s.getV y then s.pc + 4 else s.pc + 2) ∧ OnlyPc s t) ∧
    (∃ t, exec (.sneReg x y) s = .next t ∧
      t.pc = (if s.getV x = s.getV y then s.pc + 2 else s.pc + 4) ∧ OnlyPc s t)

/-- Bnnn JP V0, nnn (40_control_flow.md R172): the exact sum; a bad target faults at the next fetch (the spec's decisions
D17, D38). R172's example names PcMisaligned for the even target 0x10FE; this follows the rule itself and
95_test_vectors.md 2.1 and 2.2 (log 16). -/
def Obligations.IndexedJumpAddsV0Exactly : Prop :=
  ∀ (nnn : Addr12) (s : State), decode (0xB#4 ++ nnn) = some (.jpV0 nnn) ∧
    ∃ t, exec (.jpV0 nnn) s = .next t ∧ t.pc.toNat = nnn.toNat + (s.getV 0).toNat ∧ t.pc.toNat ≤ 0x10FE ∧
      OnlyPc s t ∧ (t.pc.toNat % 2 = 1 → t.fetch = .error .pcMisaligned) ∧
      (t.pc.toNat % 2 = 0 → 0xFFE < t.pc.toNat → t.fetch = .error .fetchOutOfRange)

/-! ### Register and ALU -/

/-- 6xkk LD, 7xkk ADD and 8xy0 LD (41_alu.md R202, R203, R204): the result, modulo 256 for the sum; no flag; every
other register as before. -/
def Obligations.LoadsAndAddImmediate : Prop :=
  ∀ (x y : RegIx) (kk : Byte) (s : State),
    decode (0x6#4 ++ nibble x ++ kk) = some (.ldImm x kk) ∧ decode (0x7#4 ++ nibble x ++ kk) = some (.addImm x kk) ∧
    decode (0x8#4 ++ nibble x ++ nibble y ++ 0x0#4) = some (.ldReg x y) ∧
    (∃ t, exec (.ldImm x kk) s = .next t ∧ t.getV x = kk ∧ KeepsRegs (· = x) s t ∧ t.pc = s.pc + 2 ∧
      OnlyRegsAndPc s t) ∧
    (∃ t, exec (.addImm x kk) s = .next t ∧ (t.getV x).toNat = ((s.getV x).toNat + kk.toNat) % 256 ∧
      KeepsRegs (· = x) s t ∧ t.pc = s.pc + 2 ∧ OnlyRegsAndPc s t) ∧
    (∃ t, exec (.ldReg x y) s = .next t ∧ t.getV x = s.getV y ∧ KeepsRegs (· = x) s t ∧ t.pc = s.pc + 2 ∧
      OnlyRegsAndPc s t)

/-- 8xy1 OR, 8xy2 AND, 8xy3 XOR (41_alu.md R205, R206, R207): bit by bit. VF is unchanged unless x = F: the spec's
decision D10. -/
def Obligations.LogicIsBitwiseAndKeepsTheFlag : Prop :=
  ∀ (x y : RegIx) (s : State),
    (∃ t, exec (.orReg x y) s = .next t ∧
      (∀ k, (t.getV x).getLsbD k = ((s.getV x).getLsbD k || (s.getV y).getLsbD k)) ∧
      KeepsRegs (· = x) s t ∧ t.pc = s.pc + 2 ∧ OnlyRegsAndPc s t) ∧
    (∃ t, exec (.andReg x y) s = .next t ∧
      (∀ k, (t.getV x).getLsbD k = ((s.getV x).getLsbD k && (s.getV y).getLsbD k)) ∧
      KeepsRegs (· = x) s t ∧ t.pc = s.pc + 2 ∧ OnlyRegsAndPc s t) ∧
    (∃ t, exec (.xorReg x y) s = .next t ∧
      (∀ k, (t.getV x).getLsbD k = ((s.getV x).getLsbD k ^^ (s.getV y).getLsbD k)) ∧
      KeepsRegs (· = x) s t ∧ t.pc = s.pc + 2 ∧ OnlyRegsAndPc s t)

/-- 8xy4 ADD Vx, Vy (41_alu.md R208): the sum modulo 256 and the carry, from the operands before the instruction
(30_encoding.md R135). That VF ends with the flag when x = F is R201, the spec's decision D9; R135 is D8. -/
def Obligations.AddSetsCarry : Prop :=
  ∀ (x y : RegIx) (s : State), ∃ t, exec (.addReg x y) s = .next t ∧
    (x ≠ 15 → (t.getV x).toNat = ((s.getV x).toNat + (s.getV y).toNat) % 256) ∧
    t.getV 15 = (if 255 < (s.getV x).toNat + (s.getV y).toNat then 1 else 0) ∧
    KeepsRegs (fun r => r = x ∨ r = 15) s t ∧ t.pc = s.pc + 2 ∧ OnlyRegsAndPc s t

/-- 8xy5 SUB and 8xy7 SUBN (41_alu.md R209, R211): the difference modulo 256, and VF = 1 exactly when there is no
borrow, equality included. The form x = F rests on R201, the spec's decision D9; R135 is D8. -/
def Obligations.SubtractionsSetNoBorrow : Prop :=
  ∀ (x y : RegIx) (s : State),
    (∃ t, exec (.sub x y) s = .next t ∧
      (x ≠ 15 → (t.getV x).toNat = ((s.getV x).toNat + 256 - (s.getV y).toNat) % 256) ∧
      t.getV 15 = (if (s.getV y).toNat ≤ (s.getV x).toNat then 1 else 0) ∧
      KeepsRegs (fun r => r = x ∨ r = 15) s t ∧ t.pc = s.pc + 2 ∧ OnlyRegsAndPc s t) ∧
    (∃ t, exec (.subn x y) s = .next t ∧
      (x ≠ 15 → (t.getV x).toNat = ((s.getV y).toNat + 256 - (s.getV x).toNat) % 256) ∧
      t.getV 15 = (if (s.getV x).toNat ≤ (s.getV y).toNat then 1 else 0) ∧
      KeepsRegs (fun r => r = x ∨ r = 15) s t ∧ t.pc = s.pc + 2 ∧ OnlyRegsAndPc s t)

/-- 8xy6 SHR and 8xyE SHL (41_alu.md R210, R212): Vx itself is shifted by one and VF is the bit shifted out; y plays
no part (30_encoding.md R125). The form x = F rests on R201, the spec's decision D9. -/
def Obligations.ShiftsUseVxOnly : Prop :=
  ∀ (x y : RegIx) (s : State),
    (∃ t, exec (.shr x y) s = .next t ∧
      (x ≠ 15 → (t.getV x).toNat = (s.getV x).toNat / 2) ∧ (t.getV 15).toNat = (s.getV x).toNat % 2 ∧
      KeepsRegs (fun r => r = x ∨ r = 15) s t ∧ t.pc = s.pc + 2 ∧ OnlyRegsAndPc s t) ∧
    (∃ t, exec (.shl x y) s = .next t ∧
      (x ≠ 15 → (t.getV x).toNat = (s.getV x).toNat * 2 % 256) ∧ (t.getV 15).toNat = (s.getV x).toNat / 128 ∧
      KeepsRegs (fun r => r = x ∨ r = 15) s t ∧ t.pc = s.pc + 2 ∧ OnlyRegsAndPc s t)

/-- Cxkk RND Vx, kk (41_alu.md R224; the spec's decision D22; log 3): the draw of this execution, a free byte of any
value, masked with kk; only bits of kk can be set; the next draw is another one. -/
def Obligations.RandomByteIsMasked : Prop :=
  ∀ (x : RegIx) (kk : Byte) (s : State), ∃ t, exec (.rnd x kk) s = .next t ∧
    (∀ k, (t.getV x).getLsbD k = ((Config.rand s.draws).getLsbD k && kk.getLsbD k)) ∧
    (kk = 0 → t.getV x = 0) ∧ (kk = 0xFF → t.getV x = Config.rand s.draws) ∧ t.draws = s.draws + 1 ∧
    KeepsRegs (· = x) s t ∧ t.pc = s.pc + 2 ∧ SameIndex s t ∧ SameStack s t ∧ SameTimers s t ∧ SameKeys s t ∧
    SameDisplay s t ∧ SameMemory s t ∧ SameRun s t ∧ t.schedule = s.schedule

/-! ### Index register, loads and stores -/

/-- Annn LD I, nnn and Fx29 LD F, Vx (42_index_memory.md R250, R253): the literal, zero-extended; five times Vx, not
masked. -/
def Obligations.IndexLoads : Prop :=
  ∀ (nnn : Addr12) (x : RegIx) (s : State),
    decode (0xA#4 ++ nnn) = some (.ldI nnn) ∧ decode (0xF#4 ++ nibble x ++ 0x29#8) = some (.ldFVx x) ∧
    (∃ t, exec (.ldI nnn) s = .next t ∧ t.i.toNat = nnn.toNat ∧ t.pc = s.pc + 2 ∧ OnlyIndexAndPc s t) ∧
    (∃ t, exec (.ldFVx x) s = .next t ∧ t.i.toNat = (s.getV x).toNat * 5 ∧ t.pc = s.pc + 2 ∧ OnlyIndexAndPc s t)

/-- Fx1E ADD I, Vx (42_index_memory.md R252): the exact sum, VF unchanged; IndexOverflow, with nothing else changed,
exactly when it passes 0xFFFF (the spec's decision D11). -/
def Obligations.IndexAddIsExactOrFaults : Prop :=
  ∀ (x : RegIx) (s : State),
    (s.i.toNat + (s.getV x).toNat ≤ 0xFFFF → ∃ t, exec (.addIVx x) s = .next t ∧
      t.i.toNat = s.i.toNat + (s.getV x).toNat ∧ t.pc = s.pc + 2 ∧ OnlyIndexAndPc s t) ∧
    (0xFFFF < s.i.toNat + (s.getV x).toNat →
      exec (.addIVx x) s = .next (s.faultedWith .indexOverflow (some (encode (.addIVx x)))))

/-- Fx33 LD B, Vx (42_index_memory.md R254): hundreds, tens and ones at I, I+1, I+2, in a state with canonical memory;
AddressOutOfRange, with nothing written (D16), when I + 2 > 0xFFF. -/
def Obligations.DecimalDigitsAreStored : Prop :=
  ∀ (x : RegIx) (s : State), decode (0xF#4 ++ nibble x ++ 0x33#8) = some (.ldBVx x) ∧
    (Memory.wf s.font s.mem → s.i.toNat + 2 ≤ 0xFFF → ∃ t, exec (.ldBVx x) s = .next t ∧
      (t.byte s.i.toNat).toNat = (s.getV x).toNat / 100 ∧
      (t.byte (s.i.toNat + 1)).toNat = (s.getV x).toNat / 10 % 10 ∧
      (t.byte (s.i.toNat + 2)).toNat = (s.getV x).toNat % 10 ∧
      t.pc = s.pc + 2 ∧ OnlyBytesAndPc s.i.toNat 3 s t) ∧
    (0xFFF < s.i.toNat + 2 →
      exec (.ldBVx x) s = .next (s.faultedWith .addressOutOfRange (some (0xF#4 ++ nibble x ++ 0x33#8))))

/-- Fx55 LD [I], Vx (42_index_memory.md R255): V0 to Vx at I to I+x, in a state with canonical memory; I unchanged is
the spec's decision D12; AddressOutOfRange, with nothing written (D16), when I + x > 0xFFF. -/
def Obligations.RegisterBlockIsStored : Prop :=
  ∀ (x : RegIx) (s : State),
    (Memory.wf s.font s.mem → s.i.toNat + x.val ≤ 0xFFF → ∃ t, exec (.ldMemVx x) s = .next t ∧
      (∀ k : RegIx, k ≤ x → t.byte (s.i.toNat + k.val) = s.getV k) ∧
      t.pc = s.pc + 2 ∧ OnlyBytesAndPc s.i.toNat (x.val + 1) s t) ∧
    (0xFFF < s.i.toNat + x.val →
      exec (.ldMemVx x) s = .next (s.faultedWith .addressOutOfRange (some (encode (.ldMemVx x)))))

/-- Fx65 LD Vx, [I] (42_index_memory.md R256): V0 to Vx from I to I+x, VF among them when x = F; I unchanged is the
spec's decision D12; AddressOutOfRange, with no register written, when I + x > 0xFFF. -/
def Obligations.RegisterBlockIsLoaded : Prop :=
  ∀ (x : RegIx) (s : State),
    (s.i.toNat + x.val ≤ 0xFFF → ∃ t, exec (.ldVxMem x) s = .next t ∧
      (∀ k : RegIx, k ≤ x → t.getV k = s.byte (s.i.toNat + k.val)) ∧
      KeepsRegs (fun r => r ≤ x) s t ∧ t.pc = s.pc + 2 ∧ OnlyRegsAndPc s t) ∧
    (0xFFF < s.i.toNat + x.val →
      exec (.ldVxMem x) s = .next (s.faultedWith .addressOutOfRange (some (encode (.ldVxMem x)))))

/-- Storing V0..Vx with Fx55 and loading them with Fx65 at the same I restores the registers, whatever the registers
held in between (42_index_memory.md R256, 95_test_vectors.md S4). -/
def Obligations.StoreThenLoadRestoresTheRegisters : Prop :=
  ∀ (x : RegIx) (s u : State), Memory.wf s.font s.mem → s.i.toNat + x.val ≤ 0xFFF →
    ∃ t, exec (.ldMemVx x) s = .next t ∧
      (u.font = t.font → u.mem = t.mem → u.i = t.i → ∃ w, exec (.ldVxMem x) u = .next w ∧ ∀ k : RegIx, k ≤ x → w.getV k = s.getV k)

/-- Self-modifying code: a fetch of two bytes that Fx55 has just stored gives them, the byte at the lower address
high (20_memory.md R92, R100, consequences the spec derives). -/
def Obligations.StoredCodeIsFetched : Prop :=
  ∀ (x k : RegIx) (s : State), Memory.wf s.font s.mem → k < x → s.i.toNat + x.val ≤ 0xFFF →
    ∃ t, exec (.ldMemVx x) s = .next t ∧
      ∀ u : State, u.font = t.font → u.mem = t.mem → u.pc.toNat = s.i.toNat + k.val → u.pc.toNat % 2 = 0 →
        u.fetch = .ok (s.getV k ++ s.getV (k + 1))

/-! ### Framebuffer -/

/-- 00E0 CLS (43_display.md R290). -/
def Obligations.ClearTurnsEveryPixelOff : Prop :=
  ∀ s : State, decode 0x00E0 = some .cls ∧
    ∃ t, exec .cls s = .next t ∧ (∀ (r c : Nat) (hr : r < 32) (hc : c < 64), t.fb[r][c] = false) ∧
      t.redraw = true ∧ t.pc = s.pc + 2 ∧ KeepsRegs (fun _ => False) s t ∧ OnlyDisplayFlagAndPc s t

/-- Dxyn DRW Vx, Vy, n (43_display.md R292-R295), pixel by pixel: a pixel changes exactly when a set bit of the sprite
lands on it; VF is 1 exactly when such a pixel was on before the draw; nothing wraps; redraw is set. A height of 0
needs no memory. The bit order is the spec's decision D14; the fault with nothing changed is D16. -/
def Obligations.DrawTogglesTheSpritePixels : Prop :=
  ∀ (x y : RegIx) (n : Height) (s : State),
    (InsideMemory s.i.toNat n.val → ∃ t, exec (.drw x y n) s = .next t ∧
      (∀ (r c : Nat) (hr : r < 32) (hc : c < 64), t.fb[r][c] = (s.fb[r][c] ^^ s.spriteAt x y n r c)) ∧
      (t.getV 15 = 0 ∨ t.getV 15 = 1) ∧
      (t.getV 15 = 1 ↔
        ∃ (r c : Nat) (hr : r < 32) (hc : c < 64), s.spriteAt x y n r c = true ∧ s.fb[r][c] = true) ∧
      t.redraw = true ∧ t.pc = s.pc + 2 ∧ OnlyDisplayFlagAndPc s t) ∧
    (¬ InsideMemory s.i.toNat n.val →
      exec (.drw x y n) s = .next (s.faultedWith .addressOutOfRange (some (encode (.drw x y n)))))

/-- Drawing the same sprite twice restores every pixel, and the second draw sets VF exactly when a visible set bit
lands on a pixel that was off before the first (43_display.md R296, a consequence the spec derives). -/
def Obligations.DrawingTwiceRestoresTheFrame : Prop :=
  ∀ (x y x' y' : RegIx) (n : Height) (s u : State), InsideMemory s.i.toNat n.val → InsideMemory u.i.toNat n.val →
    ∃ t, exec (.drw x y n) s = .next t ∧
      (u.fb = t.fb → (∀ r c, u.spriteAt x' y' n r c = s.spriteAt x y n r c) →
        ∃ w, exec (.drw x' y' n) u = .next w ∧ w.fb = s.fb ∧
          (w.getV 15 = 1 ↔
            ∃ (r c : Nat) (hr : r < 32) (hc : c < 64), s.spriteAt x y n r c = true ∧ s.fb[r][c] = false))

/-- After a CLS, a following draw leaves exactly the set, visible bits of its sprite on, with VF = 0
(43_display.md R296, 95_test_vectors.md S3). -/
def Obligations.DrawAfterClearShowsTheSprite : Prop :=
  ∀ (x y : RegIx) (n : Height) (s : State), InsideMemory s.i.toNat n.val →
    ∃ t w, exec .cls s = .next t ∧ exec (.drw x y n) t = .next w ∧ w.getV 15 = 0 ∧ w.redraw = true ∧
      ∀ (r c : Nat) (hr : r < 32) (hc : c < 64), w.fb[r][c] = s.spriteAt x y n r c

/-! ### Keys and timers -/

/-- Ex9E SKP and ExA1 SKNP (44_keys_timers.md R321, R322): the level of key V[x] decides between 4 and 2;
KeyIndexOutOfRange, with nothing else changed, when V[x] > 15 (R320, the spec's decision D13). -/
def Obligations.KeySkipsReadTheMatrix : Prop :=
  ∀ (x : RegIx) (s : State),
    (∀ h : (s.getV x).toNat < 16,
      (∃ t, exec (.skp x) s = .next t ∧
        t.pc = (if s.keys[(s.getV x).toNat] = true then s.pc + 4 else s.pc + 2) ∧ OnlyPc s t) ∧
      (∃ t, exec (.sknp x) s = .next t ∧
        t.pc = (if s.keys[(s.getV x).toNat] = true then s.pc + 2 else s.pc + 4) ∧ OnlyPc s t)) ∧
    (15 < (s.getV x).toNat →
      exec (.skp x) s = .next (s.faultedWith .keyIndexOutOfRange (some (encode (.skp x)))) ∧
      exec (.sknp x) s = .next (s.faultedWith .keyIndexOutOfRange (some (encode (.sknp x)))))

/-- Fx0A LD Vx, K (44_keys_timers.md R324; the form is the spec's decision D30): with a key pressed, Vx is the highest
pressed index; with none, nothing changes and `pc` stays, so the instruction runs again. -/
def Obligations.KeyWaitTakesTheHighestKey : Prop :=
  ∀ (x : RegIx) (s : State),
    (∀ k : Fin 16, s.keys[k.val] = true → (∀ j : Fin 16, s.keys[j.val] = true → j ≤ k) →
      ∃ t, exec (.ldVxK x) s = .next t ∧ (t.getV x).toNat = k.val ∧ KeepsRegs (· = x) s t ∧ t.pc = s.pc + 2 ∧
        OnlyRegsAndPc s t) ∧
    ((∀ k : Fin 16, s.keys[k.val] = false) → exec (.ldVxK x) s = .next s)

/-- Fx07 LD Vx, DT (44_keys_timers.md R323): the delay timer as the instruction finds it. That the cycle's timer check
comes after it (60_exceptions.md R370, the spec's decision D21) is a clause of StepRunsDecodedInstruction. -/
def Obligations.DelayTimerIsRead : Prop :=
  ∀ (x : RegIx) (s : State), decode (0xF#4 ++ nibble x ++ 0x07#8) = some (.ldVxDt x) ∧
    ∃ t, exec (.ldVxDt x) s = .next t ∧ t.getV x = s.dt.value ∧ KeepsRegs (· = x) s t ∧ t.pc = s.pc + 2 ∧
      OnlyRegsAndPc s t

/-- Fx15 LD DT, Vx and Fx18 LD ST, Vx (44_keys_timers.md R325, R326): the timer takes Vx and its due bit is cleared,
so the same cycle's check leaves it alone; the other timer is untouched. -/
def Obligations.TimersAreSet : Prop :=
  ∀ (x : RegIx) (s : State),
    decode (0xF#4 ++ nibble x ++ 0x15#8) = some (.ldDtVx x) ∧ decode (0xF#4 ++ nibble x ++ 0x18#8) = some (.ldStVx x) ∧
    (∃ t, exec (.ldDtVx x) s = .next t ∧ t.dt = ⟨s.getV x, false⟩ ∧ t.timerCheck.dt = t.dt ∧ t.st = s.st ∧
      t.pc = s.pc + 2 ∧ OnlyTimersAndPc s t) ∧
    (∃ t, exec (.ldStVx x) s = .next t ∧ t.st = ⟨s.getV x, false⟩ ∧ t.timerCheck.st = t.st ∧ t.dt = s.dt ∧
      t.pc = s.pc + 2 ∧ OnlyTimersAndPc s t)

/-- The timer check at the end of a cycle (60_exceptions.md R370; the spec's decision D21): each timer, independently,
goes down by one and loses its due bit when it is nonzero and due, and is otherwise left alone, its due bit too;
nothing else changes. -/
def Obligations.TimerCheckDecrementsDueTimers : Prop :=
  ∀ s : State,
    ((s.dt.value ≠ 0 ∧ s.dt.due = true) →
      s.timerCheck.dt.value.toNat + 1 = s.dt.value.toNat ∧ s.timerCheck.dt.due = false) ∧
    (¬ (s.dt.value ≠ 0 ∧ s.dt.due = true) → s.timerCheck.dt = s.dt) ∧
    ((s.st.value ≠ 0 ∧ s.st.due = true) →
      s.timerCheck.st.value.toNat + 1 = s.st.value.toNat ∧ s.timerCheck.st.due = false) ∧
    (¬ (s.st.value ≠ 0 ∧ s.st.due = true) → s.timerCheck.st = s.st) ∧
    s.timerCheck = { s with dt := s.timerCheck.dt, st := s.timerCheck.st }

/-- Whole machine: across any step short of a launch a timer keeps its value, or was nonzero and due and went down by
exactly one and is no longer due, or the step executed the instruction that sets it (60_exceptions.md R370, R371;
10_state.md R49; the spec's decision D21). -/
def Obligations.TimersFallByAtMostOnePerStep : Prop :=
  ∀ s t : State, (∀ p, s.nextAction.1 ≠ .launch p) → step s = .next t →
    (t.dt.value = s.dt.value ∨
      (s.dt.value ≠ 0 ∧ s.dt.due = true ∧ t.dt.value.toNat + 1 = s.dt.value.toNat ∧ t.dt.due = false) ∨
      (∃ x, decode s.wordAtPc = some (.ldDtVx x) ∧ t.dt = ⟨s.getV x, false⟩)) ∧
    (t.st.value = s.st.value ∨
      (s.st.value ≠ 0 ∧ s.st.due = true ∧ t.st.value.toNat + 1 = s.st.value.toNat ∧ t.st.due = false) ∨
      (∃ x, decode s.wordAtPc = some (.ldStVx x) ∧ t.st = ⟨s.getV x, false⟩))

/-- The untimed timer is the image of the timed one, for every positive period (10_state.md R50, R52; 60_exceptions.md
R372; log 5): checking, setting and letting time pass in the timed form are, seen through `T_due = (T_elapsed >=
TIMER_PERIOD)`, the untimed check, set, and a possible setting of the due bit; and the timed timer at VM start, with
its elapsed time 0 (70_reset_and_hazards.md R426), is the untimed timer at reset. -/
def Obligations.UntimedTimerRefinesTimed : Prop :=
  ∀ (period : Nat) (t : TimedTimer) (a : Byte) (d : Nat), 0 < period →
    (t.check period).untimed period = (t.untimed period).check ∧
    (t.set a).untimed period = (t.untimed period).set a ∧
    TimedTimer.reset.untimed period = State.reset.dt ∧ TimedTimer.reset.untimed period = State.reset.st ∧
    (∃ due, (t.pass d).untimed period = (t.untimed period).pass due) ∧
    (t.isDue period = true → ∀ d', (t.pass d').isDue period = true)

/-! ### Which instruction touches what -/

/-- Only 00E0 and Dxyn write the framebuffer and set redraw, and no instruction clears redraw (10_state.md R56, R57;
R57 is the spec's decision D24). -/
def Obligations.OnlyClearAndDrawTouchTheDisplay : Prop :=
  ∀ (i : Instr) (s t : State), exec i s = .next t →
    (i ≠ .cls → (∀ x y n, i ≠ .drw x y n) → SameDisplay s t) ∧ (s.redraw = true → t.redraw = true)

/-- No instruction reads or writes the call stack except 2nnn and 00EE (10_state.md R40). -/
def Obligations.OnlyCallAndReturnTouchTheStack : Prop :=
  ∀ (i : Instr) (s t : State), i ≠ .ret → (∀ nnn, i ≠ .call nnn) → exec i s = .next t →
    SameStack s t ∧
    ∀ (stack : Vector Word 16) (sp : Fin 17),
      exec i { s with stack := stack, sp := sp } = .next { t with stack := stack, sp := sp }

/-- No instruction but Fx33 and Fx55 writes memory (20_memory.md R80, R94). -/
def Obligations.OnlyStoresTouchMemory : Prop :=
  ∀ (i : Instr) (s t : State), (∀ x, i ≠ .ldBVx x) → (∀ x, i ≠ .ldMemVx x) → exec i s = .next t →
    SameMemory s t ∧ t.mem = s.mem

/-- I changes only through Annn, Fx1E and Fx29 (42_index_memory.md R248, 10_state.md R33). -/
def Obligations.OnlyIndexInstructionsTouchI : Prop :=
  ∀ (i : Instr) (s t : State), (∀ nnn, i ≠ .ldI nnn) → (∀ x, i ≠ .addIVx x) → (∀ x, i ≠ .ldFVx x) →
    exec i s = .next t → SameIndex s t

/-- No instruction writes the key matrix (10_state.md R54), and only Fx15 writes dt, only Fx18 writes st (R49). -/
def Obligations.NoInstructionWritesKeysAndOnlySettersWriteTimers : Prop :=
  ∀ (i : Instr) (s t : State), exec i s = .next t →
    SameKeys s t ∧ ((∀ x, i ≠ .ldDtVx x) → t.dt = s.dt) ∧ ((∀ x, i ≠ .ldStVx x) → t.st = s.st)

/-- Each instruction writes only the registers the table of 10_state.md R32 gives it. -/
def Obligations.RegisterWritesAreTheTabledOnes : Prop :=
  ∀ (i : Instr) (s t : State), exec i s = .next t → KeepsRegs i.writes s t

/-- No instruction reads the due bits (10_state.md R52) or st (R49): changing them before changes nothing but them
after. -/
def Obligations.DueBitsAndSoundTimerAreUnread : Prop :=
  ∀ (i : Instr) (s t : State) (due : Bool) (st : Timer), exec i s = .next t →
    ∃ t', exec i { s with dt := ⟨s.dt.value, due⟩, st := st } = .next t' ∧
      t' = { t with dt := t'.dt, st := t'.st } ∧ t'.dt.value = t.dt.value

/-- FONT is a parameter of the machine (00_scope.md R5, 70_reset_and_hazards.md R424): no step changes it, a launch
neither, and every statement over all states is one over every FONT. That it stands in the state is the model's
choice (log 2). -/
def Obligations.NoStepChangesTheFont : Prop :=
  ∀ s t : State, step s = .next t → t.font = s.font

/-! ### The host -/

/-- `KeyWrite(k, pressed)` sets one key and changes nothing else (60_exceptions.md R384; between cycles only, the spec's
decision D23). The schedule is the model's own (log 4). -/
def Obligations.KeyWriteSetsOneKey : Prop :=
  ∀ (s : State) (k : Fin 16) (pressed : Bool) (rest : List Action), s.schedule = .keyWrite k pressed :: rest →
    ∃ t, step s = .next t ∧ t.keys[k.val] = pressed ∧ (∀ j : Fin 16, j ≠ k → t.keys[j.val] = s.keys[j.val]) ∧
      t = { s with keys := t.keys, schedule := rest }

/-- `ConsumeFrame()` returns the framebuffer and the redraw flag as one snapshot and then clears redraw;
`PeekFrame()` gives the same snapshot and is a function of the state, so it changes nothing (60_exceptions.md R386; the
spec's decisions D23, D24). The schedule is the model's own (log 4), and so is the form of a read (log 12). -/
def Obligations.ConsumeFrameSnapshotsThenClears : Prop :=
  ∀ (s : State) (rest : List Action), s.schedule = .consumeFrame :: rest →
    step s = .next { s with redraw := false, schedule := rest } ∧
    s.consumeFrame.1 = (s.fb, s.redraw) ∧ s.peekFrame = s.consumeFrame.1

/-- Time passes (60_exceptions.md R372, the spec's decision D21): due bits may be set, none is cleared, and nothing
else changes. -/
def Obligations.TimePassesSetsDueBitsOnly : Prop :=
  ∀ (s : State) (dt st : Bool) (rest : List Action), s.schedule = .timePasses dt st :: rest → s.run = .running →
    ∃ t, step s = .next t ∧ t.dt = ⟨s.dt.value, s.dt.due || dt⟩ ∧ t.st = ⟨s.st.value, s.st.due || st⟩ ∧
      t = { s with dt := t.dt, st := t.st, schedule := rest }

/-- A launch resets the core, for the machine's FONT, and loads the program at 0x200; the default program when there is none; a program
longer than 3584 bytes is refused (70_reset_and_hazards.md R420, R430, R431; the spec's decisions D26, D27;
logs 10, 11). -/
def Obligations.LaunchResetsAndLoads : Prop :=
  ∀ (s : State) (p : Option (List Byte)) (rest : List Action), s.schedule = .launch p :: rest →
    let bytes := p.getD Config.defaultProgram
    (bytes.length ≤ 3584 → ∃ t, step s = .next t ∧
      (∀ (k : Nat) (h : k < bytes.length), t.byte (0x200 + k) = bytes[k]) ∧
      (∀ a, (a < 0x200 ∨ 0x200 + bytes.length ≤ a) → t.byte a = (State.resetWith s.font).byte a) ∧
      t = { State.resetWith s.font with mem := t.mem, draws := s.draws, schedule := rest }) ∧
    (3584 < bytes.length → step s = .refused .programTooLong)

/-- The host has no move, short of a launch, that writes memory, V0-VF, I, pc, the stack, a timer's value or the
framebuffer (60_exceptions.md R389, 10_state.md R65). -/
def Obligations.HostMovesLeaveTheProgramStateAlone : Prop :=
  ∀ s t : State, s.nextAction.1 ≠ .cycle → (∀ p, s.nextAction.1 ≠ .launch p) → step s = .next t →
    KeepsRegs (fun _ => False) s t ∧ SameIndex s t ∧ t.pc = s.pc ∧ SameStack s t ∧ SameMemory s t ∧
    t.fb = s.fb ∧ t.dt.value = s.dt.value ∧ t.st.value = s.st.value ∧ SameRun s t ∧ t.draws = s.draws
end

