-- ==== Sys2Proof/Laws/Display.lean ====
section
/-!
SUPPORT. Drawing: a run of the drawing loop over distinct pixels toggles each of them once, and the hit bit says
that one of them was on before (43_display.md R293, R294).
-/

namespace Sys2Proof.Machine

/-- Pixel (`r`, `c`) of a frame; off outside the grid. -/
def Frame.on (f : Frame) (r c : Nat) : Bool :=
  if h : r < 32 ∧ c < 64 then (f[r]'h.1)[c]'h.2 else false

theorem Frame.on_of_lt (f : Frame) {r c : Nat} (hr : r < 32) (hc : c < 64) : Frame.on f r c = f[r][c] := by
  simp [Frame.on, hr, hc]

/-- One pixel of the frame after one toggle. -/
theorem drawPixel_on (row col : Nat) (d : Frame × Bool) {r c : Nat} (hr : r < 32) (hc : c < 64) :
    Frame.on (drawPixel row col d).1 r c = (Frame.on d.1 r c ^^ decide (row = r ∧ col = c)) := by
  rw [Frame.on_of_lt _ hr hc, Frame.on_of_lt _ hr hc]
  unfold drawPixel
  split
  · rename_i h
    simp only [Vector.getElem_set]
    by_cases h1 : row = r
    · subst h1
      by_cases h2 : col = c
      · subst h2
        simp
      · simp [h2]
    · simp [h1]
  · rename_i h
    have : ¬(row = r ∧ col = c) := by omega
    simp [this]

/-- The hit bit after one toggle. -/
theorem drawPixel_hit (row col : Nat) (d : Frame × Bool) :
    (drawPixel row col d).2 = (d.2 || Frame.on d.1 row col) := by
  unfold drawPixel
  split
  · rename_i h
    rw [Frame.on_of_lt _ h.1 h.2]
  · rename_i h
    simp [Frame.on, h]

/-- The drawing loop over a list of pixels. -/
def drawPixels (ps : List (Nat × Nat)) (d : Frame × Bool) : Frame × Bool :=
  ps.foldl (fun d p => drawPixel p.1 p.2 d) d

/-- Over distinct pixels, each is toggled exactly once. -/
theorem drawPixels_on {ps : List (Nat × Nat)} (hn : ps.Nodup) (d : Frame × Bool) {r c : Nat} (hr : r < 32)
    (hc : c < 64) : Frame.on (drawPixels ps d).1 r c = (Frame.on d.1 r c ^^ decide ((r, c) ∈ ps)) := by
  induction ps generalizing d with
  | nil => simp [drawPixels]
  | cons p ps ih =>
    obtain ⟨a, b⟩ := p
    rw [List.nodup_cons] at hn
    show Frame.on (drawPixels ps (drawPixel a b d)).1 r c = _
    rw [ih hn.2, drawPixel_on _ _ _ hr hc]
    by_cases h : a = r ∧ b = c
    · obtain ⟨rfl, rfl⟩ := h
      simp [hn.1]
    · have h' : ¬(r, c) = (a, b) := by
        rw [Prod.mk.injEq]
        omega
      simp [h, h']

/-- Over distinct pixels, the hit bit says that one of them was on in the frame the loop started from. -/
theorem drawPixels_hit {ps : List (Nat × Nat)} (hn : ps.Nodup) (d : Frame × Bool) :
    (drawPixels ps d).2 = (d.2 || ps.any fun p => Frame.on d.1 p.1 p.2) := by
  induction ps generalizing d with
  | nil => simp [drawPixels]
  | cons p ps ih =>
    obtain ⟨a, b⟩ := p
    rw [List.nodup_cons] at hn
    show (drawPixels ps (drawPixel a b d)).2 = _
    rw [ih hn.2, drawPixel_hit, List.any_cons, Bool.or_assoc]
    congr 2
    rw [Bool.eq_iff_iff, List.any_eq_true, List.any_eq_true]
    refine exists_congr fun q => and_congr_right fun hq => ?_
    have hne : ¬(a = q.1 ∧ b = q.2) := by
      rintro ⟨rfl, rfl⟩
      exact hn.1 hq
    by_cases hin : q.1 < 32 ∧ q.2 < 64
    · rw [drawPixel_on _ _ _ hin.1 hin.2]
      simp [hne]
    · simp [Frame.on, hin]

/-- The columns of a sprite row's set bits. -/
def rowPixels (row x0 : Nat) (bits : Byte) : List (Nat × Nat) :=
  ((List.range 8).filter fun c => bits.getLsbD (7 - c)).map fun c => (row, x0 + c)

/-- The pixels of a sprite's set bits, row by row. -/
def spritePixels (row x0 : Nat) : List Byte → List (Nat × Nat)
  | [] => []
  | bits :: rest => rowPixels row x0 bits ++ spritePixels (row + 1) x0 rest

theorem drawRow_eq (row x0 : Nat) (bits : Byte) (d : Frame × Bool) :
    drawRow row x0 bits d = drawPixels (rowPixels row x0 bits) d := by
  rw [drawRow, drawPixels, rowPixels, List.foldl_map, List.foldl_filter]

theorem drawRows_eq (row x0 : Nat) (sprite : List Byte) (d : Frame × Bool) :
    drawRows row x0 sprite d = drawPixels (spritePixels row x0 sprite) d := by
  induction sprite generalizing row d with
  | nil => rfl
  | cons bits rest ih =>
    rw [drawRows, ih, drawRow_eq, spritePixels, drawPixels, drawPixels, drawPixels, List.foldl_append]

theorem mem_rowPixels (row x0 : Nat) (bits : Byte) (r c : Nat) :
    (r, c) ∈ rowPixels row x0 bits ↔ r = row ∧ x0 ≤ c ∧ c < x0 + 8 ∧ bits.getLsbD (7 - (c - x0)) = true := by
  simp only [rowPixels, List.mem_map, List.mem_filter, List.mem_range, Prod.mk.injEq]
  constructor
  · rintro ⟨k, ⟨hk, hb⟩, rfl, rfl⟩
    refine ⟨rfl, by omega, by omega, ?_⟩
    rwa [Nat.add_sub_cancel_left]
  · rintro ⟨rfl, h1, h2, hb⟩
    exact ⟨c - x0, ⟨by omega, hb⟩, rfl, by omega⟩

theorem mem_spritePixels (row x0 : Nat) (sprite : List Byte) (r c : Nat) :
    (r, c) ∈ spritePixels row x0 sprite ↔ spriteBit row x0 sprite r c = true := by
  induction sprite generalizing row with
  | nil =>
    simp only [spritePixels, List.not_mem_nil, spriteBit, List.length_nil, false_iff, Bool.and_eq_true,
      decide_eq_true_eq, not_and]
    omega
  | cons bits rest ih =>
    rw [spritePixels, List.mem_append, mem_rowPixels, ih]
    simp only [spriteBit, Bool.and_eq_true, decide_eq_true_eq, List.length_cons]
    by_cases hr : r = row
    · subst hr
      simp only [true_and, Nat.sub_self, List.getD_cons_zero]
      constructor
      · rintro (h | h)
        · exact ⟨⟨by omega, by omega, h.1, h.2.1⟩, h.2.2⟩
        · omega
      · rintro ⟨h, hb⟩
        exact .inl ⟨h.2.2.1, h.2.2.2, hb⟩
    · constructor
      · rintro (h | ⟨h, hb⟩)
        · exact absurd h.1 hr
        · refine ⟨⟨by omega, by omega, h.2.2.1, h.2.2.2⟩, ?_⟩
          rwa [show r - row = (r - (row + 1)) + 1 by omega, List.getD_cons_succ]
      · rintro ⟨h, hb⟩
        refine .inr ⟨⟨by omega, by omega, h.2.2.1, h.2.2.2⟩, ?_⟩
        rwa [show r - row = (r - (row + 1)) + 1 by omega, List.getD_cons_succ] at hb

theorem nodup_spritePixels (row x0 : Nat) (sprite : List Byte) : (spritePixels row x0 sprite).Nodup := by
  induction sprite generalizing row with
  | nil => exact List.nodup_nil
  | cons bits rest ih =>
    rw [spritePixels, List.nodup_append']
    refine ⟨?_, ih _, ?_⟩
    · rw [rowPixels]
      refine (List.nodup_range.filter _).map fun a b h => ?_
      rw [Prod.mk.injEq] at h
      omega
    · intro p hp hq
      obtain ⟨r, c⟩ := p
      rw [mem_rowPixels] at hp
      rw [mem_spritePixels] at hq
      simp only [spriteBit, Bool.and_eq_true, decide_eq_true_eq] at hq
      omega

/-- What drawing a sprite does to one pixel (43_display.md R293): the pixel is toggled when a set bit lands on it. -/
theorem drawRows_on (row x0 : Nat) (sprite : List Byte) (d : Frame × Bool) {r c : Nat} (hr : r < 32) (hc : c < 64) :
    Frame.on (drawRows row x0 sprite d).1 r c = (Frame.on d.1 r c ^^ spriteBit row x0 sprite r c) := by
  rw [drawRows_eq, drawPixels_on (nodup_spritePixels _ _ _) _ hr hc]
  congr 1
  rw [Bool.eq_iff_iff, decide_eq_true_eq, mem_spritePixels]

/-- What the hit bit says (43_display.md R293, R294): a set bit landed on a pixel that was on before the draw. -/
theorem drawRows_hit (row x0 : Nat) (sprite : List Byte) (fb : Frame) :
    (drawRows row x0 sprite (fb, false)).2 = true ↔
      ∃ (r c : Nat) (hr : r < 32) (hc : c < 64), spriteBit row x0 sprite r c = true ∧ fb[r][c] = true := by
  rw [drawRows_eq, drawPixels_hit (nodup_spritePixels _ _ _), Bool.false_or, List.any_eq_true]
  constructor
  · rintro ⟨⟨r, c⟩, hm, ho⟩
    by_cases h : r < 32 ∧ c < 64
    · refine ⟨r, c, h.1, h.2, (mem_spritePixels _ _ _ _ _).1 hm, ?_⟩
      rwa [← Frame.on_of_lt]
    · simp [Frame.on, h] at ho
  · rintro ⟨r, c, hr, hc, hb, ho⟩
    refine ⟨(r, c), (mem_spritePixels _ _ _ _ _).2 hb, ?_⟩
    rwa [Frame.on_of_lt _ hr hc]

end Sys2Proof.Machine
end

