-- ==== Sys2Proof/Laws/Encoding.lean ====
section
/-!
SUPPORT. The fields of a word as numbers, the words of the three formats as numbers, and each field of each format.
-/

namespace Sys2Proof

/-! ### Fields and formats as numbers -/

@[simp] theorem nibble_toNat (k : Fin 16) : (nibble k).toNat = k.val := rfl

@[simp] theorem nibble_toFin (k : Fin 16) : (nibble k).toFin = k := rfl

theorem wordNNN_toNat (p : BitVec 4) (nnn : Addr12) : (wordNNN p nnn).toNat = p.toNat * 4096 + nnn.toNat := by
  rw [wordNNN, BitVec.toNat_append, ← Nat.shiftLeft_add_eq_or_of_lt nnn.isLt, Nat.shiftLeft_eq]

theorem wordXKK_toNat (p : BitVec 4) (x : RegIx) (kk : Byte) :
    (wordXKK p x kk).toNat = p.toNat * 4096 + x.val * 256 + kk.toNat := by
  rw [wordXKK, BitVec.toNat_append, ← Nat.shiftLeft_add_eq_or_of_lt kk.isLt, BitVec.toNat_append,
    ← Nat.shiftLeft_add_eq_or_of_lt (nibble x).isLt]
  simp only [Nat.shiftLeft_eq, nibble_toNat]
  omega

theorem wordXYN_toNat (p : BitVec 4) (x y n : Fin 16) :
    (wordXYN p x y n).toNat = p.toNat * 4096 + x.val * 256 + y.val * 16 + n.val := by
  rw [wordXYN, BitVec.toNat_append, ← Nat.shiftLeft_add_eq_or_of_lt (nibble n).isLt, BitVec.toNat_append,
    ← Nat.shiftLeft_add_eq_or_of_lt (nibble y).isLt, BitVec.toNat_append,
    ← Nat.shiftLeft_add_eq_or_of_lt (nibble x).isLt]
  simp only [Nat.shiftLeft_eq, nibble_toNat]
  omega

theorem topNibble_toNat (w : Word) : (topNibble w).toNat = w.toNat / 4096 := by
  have := w.isLt
  simp [topNibble, Nat.shiftRight_eq_div_pow]
  omega

theorem fieldX_val (w : Word) : (fieldX w).val = w.toNat / 256 % 16 := by
  simp [fieldX, Nat.shiftRight_eq_div_pow]

theorem fieldY_val (w : Word) : (fieldY w).val = w.toNat / 16 % 16 := by
  simp [fieldY, Nat.shiftRight_eq_div_pow]

theorem fieldN_val (w : Word) : (fieldN w).val = w.toNat % 16 := by
  simp [fieldN]

theorem fieldKK_toNat (w : Word) : (fieldKK w).toNat = w.toNat % 256 := by
  simp [fieldKK]

theorem fieldNNN_toNat (w : Word) : (fieldNNN w).toNat = w.toNat % 4096 := by
  simp [fieldNNN]

/-! ### The fields of each format -/

@[simp] theorem topNibble_wordNNN (p : BitVec 4) (nnn : Addr12) : topNibble (wordNNN p nnn) = p := by
  apply BitVec.eq_of_toNat_eq
  rw [topNibble_toNat, wordNNN_toNat]
  have := nnn.isLt
  omega

@[simp] theorem fieldNNN_wordNNN (p : BitVec 4) (nnn : Addr12) : fieldNNN (wordNNN p nnn) = nnn := by
  apply BitVec.eq_of_toNat_eq
  rw [fieldNNN_toNat, wordNNN_toNat]
  have := nnn.isLt
  omega

@[simp] theorem topNibble_wordXKK (p : BitVec 4) (x : RegIx) (kk : Byte) : topNibble (wordXKK p x kk) = p := by
  apply BitVec.eq_of_toNat_eq
  rw [topNibble_toNat, wordXKK_toNat]
  have := kk.isLt
  omega

@[simp] theorem fieldX_wordXKK (p : BitVec 4) (x : RegIx) (kk : Byte) : fieldX (wordXKK p x kk) = x := by
  apply Fin.ext
  rw [fieldX_val, wordXKK_toNat]
  have := kk.isLt
  omega

@[simp] theorem fieldKK_wordXKK (p : BitVec 4) (x : RegIx) (kk : Byte) : fieldKK (wordXKK p x kk) = kk := by
  apply BitVec.eq_of_toNat_eq
  rw [fieldKK_toNat, wordXKK_toNat]
  have := kk.isLt
  omega

@[simp] theorem topNibble_wordXYN (p : BitVec 4) (x y n : Fin 16) : topNibble (wordXYN p x y n) = p := by
  apply BitVec.eq_of_toNat_eq
  rw [topNibble_toNat, wordXYN_toNat]
  omega

@[simp] theorem fieldX_wordXYN (p : BitVec 4) (x y n : Fin 16) : fieldX (wordXYN p x y n) = x := by
  apply Fin.ext
  rw [fieldX_val, wordXYN_toNat]
  omega

@[simp] theorem fieldY_wordXYN (p : BitVec 4) (x y n : Fin 16) : fieldY (wordXYN p x y n) = y := by
  apply Fin.ext
  rw [fieldY_val, wordXYN_toNat]
  omega

@[simp] theorem fieldN_wordXYN (p : BitVec 4) (x y n : Fin 16) : fieldN (wordXYN p x y n) = n := by
  apply Fin.ext
  rw [fieldN_val, wordXYN_toNat]
  omega

/-! ### A word from its fields -/

theorem wordNNN_fields (w : Word) : wordNNN (topNibble w) (fieldNNN w) = w := by
  apply BitVec.eq_of_toNat_eq
  rw [wordNNN_toNat, topNibble_toNat, fieldNNN_toNat]
  omega

theorem wordXKK_fields (w : Word) : wordXKK (topNibble w) (fieldX w) (fieldKK w) = w := by
  apply BitVec.eq_of_toNat_eq
  rw [wordXKK_toNat, topNibble_toNat, fieldX_val, fieldKK_toNat]
  omega

theorem wordXYN_fields (w : Word) : wordXYN (topNibble w) (fieldX w) (fieldY w) (fieldN w) = w := by
  apply BitVec.eq_of_toNat_eq
  rw [wordXYN_toNat, topNibble_toNat, fieldX_val, fieldY_val, fieldN_val]
  omega

/-! ### The masks of the opcode table -/

/-- Mask 0xF000 keeps the top nibble. -/
theorem and_topMask (w : Word) : w &&& 0xF000 = wordNNN (topNibble w) 0 := by
  apply BitVec.eq_of_getLsbD_eq
  intro k hk
  rw [BitVec.getLsbD_and, wordNNN, topNibble]
  simp only [BitVec.getLsbD_append, BitVec.getLsbD_extractLsb']
  interval_cases k <;> simp

/-- Mask 0xF00F keeps the top nibble and n. -/
theorem and_selectorMask (w : Word) : w &&& 0xF00F = wordXYN (topNibble w) 0 0 (fieldN w) := by
  conv_lhs => rw [← wordXYN_fields w]
  apply BitVec.eq_of_getLsbD_eq
  intro k hk
  rw [BitVec.getLsbD_and, wordXYN, wordXYN]
  simp only [BitVec.getLsbD_append]
  interval_cases k <;> simp [nibble]

/-- Mask 0xF0FF keeps the top nibble and kk. -/
theorem and_functionMask (w : Word) : w &&& 0xF0FF = wordXKK (topNibble w) 0 (fieldKK w) := by
  conv_lhs => rw [← wordXKK_fields w]
  apply BitVec.eq_of_getLsbD_eq
  intro k hk
  rw [BitVec.getLsbD_and, wordXKK, wordXKK]
  simp only [BitVec.getLsbD_append]
  interval_cases k <;> simp [nibble]

/-- Mask 0xFFFF keeps the word. -/
theorem and_fullMask (w : Word) : w &&& 0xFFFF = w := BitVec.and_allOnes

/-! ### Bytes -/

@[simp] theorem bigEndian_toNat (hi lo : Byte) : (bigEndian hi lo).toNat = hi.toNat * 256 + lo.toNat := by
  rw [bigEndian, BitVec.toNat_append, ← Nat.shiftLeft_add_eq_or_of_lt lo.isLt, Nat.shiftLeft_eq]

/-- The operand types carry the ranges of 30_encoding.md R121 and R124: no term is out of range. -/
theorem Instr.wellFormed_all (i : Instr) : i.wellFormed = true := by
  cases i <;> simp [Instr.wellFormed, nibbleInRange, byteInRange, addrInRange] <;> omega

end Sys2Proof
end

