-- ==== Sys2Proof/Laws/Memory.lean ====
section
/-!
SUPPORT. Memory: a read after a write, the canonical form under every memory operation, and equality of canonical
memories that hold the same bytes where the spec determines one.
-/

namespace Sys2Proof.Machine

/-! ### Lookup -/

@[simp] theorem Memory.listed_nil (a : Nat) : Memory.listed [] a = none := rfl

@[simp] theorem Memory.listed_cons (k : Nat) (b : Byte) (m : Memory) (a : Nat) :
    Memory.listed ((k, b) :: m) a = if k = a then some b else Memory.listed m a := rfl

/-- An address below every listed one is not listed. -/
theorem Memory.listed_eq_none_of_lt {m : Memory} {a : Nat} (h : ∀ c ∈ m, a < c.1) : Memory.listed m a = none := by
  induction m with
  | nil => rfl
  | cons c m ih =>
    obtain ⟨k, b⟩ := c
    have hk : a < k := h (k, b) (by simp)
    rw [Memory.listed_cons, if_neg (by omega)]
    exact ih fun c hc => h c (by simp [hc])

theorem Memory.listed_insert (m : Memory) (a a' : Nat) (b : Byte) :
    Memory.listed (Memory.insert m a b) a' = if a = a' then some b else Memory.listed m a' := by
  induction m with
  | nil => rfl
  | cons c m ih =>
    obtain ⟨k, d⟩ := c
    simp only [Memory.insert]
    split
    · simp
    · split
      · subst_vars
        simp only [Memory.listed_cons]
        split <;> rfl
      · rename_i h1 h2
        simp only [Memory.listed_cons, ih]
        split
        · rw [if_neg (by omega)]
        · rfl

theorem Memory.listed_erase_self {m : Memory} (h : m.Pairwise (fun c d => c.1 < d.1)) (a : Nat) :
    Memory.listed (Memory.erase m a) a = none := by
  induction m with
  | nil => rfl
  | cons c m ih =>
    obtain ⟨k, d⟩ := c
    rw [List.pairwise_cons] at h
    simp only [Memory.erase]
    split
    · subst_vars
      exact Memory.listed_eq_none_of_lt fun c hc => h.1 c hc
    · rename_i hk
      rw [Memory.listed_cons, if_neg hk]
      exact ih h.2

theorem Memory.listed_erase_ne (m : Memory) {a a' : Nat} (h : a ≠ a') :
    Memory.listed (Memory.erase m a) a' = Memory.listed m a' := by
  induction m with
  | nil => rfl
  | cons c m ih =>
    obtain ⟨k, d⟩ := c
    simp only [Memory.erase]
    split
    · rw [Memory.listed_cons, if_neg (by omega)]
    · simp only [Memory.listed_cons, ih]

/-! ### Read after write -/

theorem Memory.byte_eq (font : Font) (m : Memory) (a : Nat) :
    Memory.byte font m a = (Memory.listed m a).getD ((Memory.unlisted font a).getD (Config.uninitMem a)) := by
  unfold Memory.byte
  cases Memory.listed m a <;> rfl

theorem Memory.byte_store_self {font : Font} {m : Memory} (h : Memory.wf font m) (a : Nat) (b : Byte) :
    Memory.byte font (Memory.store font m a b) a = b := by
  rw [Memory.store, Memory.byte_eq]
  split
  · rename_i hb
    rw [Memory.listed_erase_self h.1, hb]
    rfl
  · rw [Memory.listed_insert, if_pos rfl]
    rfl

theorem Memory.byte_store_ne (font : Font) (m : Memory) {a a' : Nat} (b : Byte) (h : a ≠ a') :
    Memory.byte font (Memory.store font m a b) a' = Memory.byte font m a' := by
  rw [Memory.store, Memory.byte_eq, Memory.byte_eq]
  split
  · rw [Memory.listed_erase_ne m h]
  · rw [Memory.listed_insert, if_neg h]

/-! ### The canonical form -/

theorem Memory.wf_nil (font : Font) : Memory.wf font [] := by simp [Memory.wf]

theorem Memory.mem_insert {m : Memory} {a : Nat} {b : Byte} {c : Host.Cell} (h : c ∈ Memory.insert m a b) :
    c = (a, b) ∨ c ∈ m := by
  induction m with
  | nil => simpa [Memory.insert] using h
  | cons d m ih =>
    obtain ⟨k, e⟩ := d
    simp only [Memory.insert] at h
    split at h
    · simpa using h
    · split at h <;> simp only [List.mem_cons] at h ⊢
      · tauto
      · rcases h with h | h
        · tauto
        · rcases ih h with h | h <;> tauto

theorem Memory.mem_erase {m : Memory} {a : Nat} {c : Host.Cell} (h : c ∈ Memory.erase m a) : c ∈ m := by
  induction m with
  | nil => simp [Memory.erase] at h
  | cons d m ih =>
    obtain ⟨k, e⟩ := d
    simp only [Memory.erase] at h
    split at h
    · exact List.mem_cons_of_mem _ h
    · simp only [List.mem_cons] at h ⊢
      rcases h with h | h
      · exact .inl h
      · exact .inr (ih h)

theorem Memory.pairwise_insert {m : Memory} (h : m.Pairwise (fun c d => c.1 < d.1)) (a : Nat) (b : Byte) :
    (Memory.insert m a b).Pairwise (fun c d => c.1 < d.1) := by
  induction m with
  | nil => simp [Memory.insert]
  | cons d m ih =>
    obtain ⟨k, e⟩ := d
    rw [List.pairwise_cons] at h
    simp only [Memory.insert]
    split
    · rename_i hk
      refine List.pairwise_cons.2 ⟨fun c hc => ?_, List.pairwise_cons.2 h⟩
      rcases List.mem_cons.1 hc with rfl | hc
      · exact hk
      · exact Nat.lt_trans hk (h.1 c hc)
    · split
      · subst_vars
        exact List.pairwise_cons.2 h
      · rename_i h1 h2
        refine List.pairwise_cons.2 ⟨fun c hc => ?_, ih h.2⟩
        rcases Memory.mem_insert hc with rfl | hc
        · show k < a
          omega
        · exact h.1 c hc

theorem Memory.pairwise_erase {m : Memory} (h : m.Pairwise (fun c d => c.1 < d.1)) (a : Nat) :
    (Memory.erase m a).Pairwise (fun c d => c.1 < d.1) := by
  induction m with
  | nil => simp [Memory.erase]
  | cons d m ih =>
    obtain ⟨k, e⟩ := d
    rw [List.pairwise_cons] at h
    simp only [Memory.erase]
    split
    · exact h.2
    · exact List.pairwise_cons.2 ⟨fun c hc => h.1 c (Memory.mem_erase hc), ih h.2⟩

/-- A write inside the address space keeps the canonical form. -/
theorem Memory.store_wf {font : Font} {m : Memory} (h : Memory.wf font m) {a : Nat} (ha : a < Config.memSize)
    (b : Byte) : Memory.wf font (Memory.store font m a b) := by
  rw [Memory.store]
  split
  · exact ⟨Memory.pairwise_erase h.1 a, fun c hc => h.2 c (Memory.mem_erase hc)⟩
  · rename_i hb
    refine ⟨Memory.pairwise_insert h.1 a b, fun c hc => ?_⟩
    rcases Memory.mem_insert hc with rfl | hc
    · exact ⟨ha, hb⟩
    · exact h.2 c hc

/-- Writing consecutive bytes inside the address space keeps the canonical form. -/
theorem Memory.storeBytes_wf {font : Font} {m : Memory} (h : Memory.wf font m) {a : Nat} {bytes : List Byte}
    (ha : a + bytes.length ≤ Config.memSize) : Memory.wf font (Memory.storeBytes font m a bytes) := by
  induction bytes generalizing m a with
  | nil => exact h
  | cons b rest ih =>
    simp only [List.length_cons] at ha
    exact ih (Memory.store_wf h (by omega) b) (by omega)

/-! ### Consecutive bytes -/

theorem Memory.byte_storeBytes_outside (font : Font) (m : Memory) {a a' : Nat} {bytes : List Byte}
    (h : a' < a ∨ a + bytes.length ≤ a') :
    Memory.byte font (Memory.storeBytes font m a bytes) a' = Memory.byte font m a' := by
  induction bytes generalizing m a with
  | nil => rfl
  | cons b rest ih =>
    simp only [List.length_cons] at h
    rw [Memory.storeBytes, ih _ (by omega), Memory.byte_store_ne _ m b (by omega)]

theorem Memory.byte_storeBytes_inside {font : Font} {m : Memory} (h : Memory.wf font m) {a : Nat} {bytes : List Byte}
    (ha : a + bytes.length ≤ Config.memSize) {k : Nat} (hk : k < bytes.length) :
    Memory.byte font (Memory.storeBytes font m a bytes) (a + k) = bytes[k] := by
  induction bytes generalizing m a k with
  | nil => simp at hk
  | cons b rest ih =>
    simp only [List.length_cons] at ha hk
    rw [Memory.storeBytes]
    cases k with
    | zero =>
      rw [Memory.byte_storeBytes_outside _ _ (by omega)]
      exact Memory.byte_store_self h a b
    | succ k =>
      have := ih (Memory.store_wf h (a := a) (by omega) b) (a := a + 1) (by omega) (k := k) (by omega)
      rwa [Nat.add_right_comm, Nat.add_assoc] at this

@[simp] theorem Memory.length_loadBytes (font : Font) (m : Memory) (a n : Nat) :
    (Memory.loadBytes font m a n).length = n := by
  simp [Memory.loadBytes]

@[simp] theorem Memory.getElem_loadBytes (font : Font) (m : Memory) (a n k : Nat)
    (h : k < (Memory.loadBytes font m a n).length) :
    (Memory.loadBytes font m a n)[k] = Memory.byte font m (a + k) := by
  simp [Memory.loadBytes]

/-! ### Equal bytes are equal data -/

/-- Two rising lists with the same entries at every address are equal. -/
theorem Memory.eq_of_listed {m m' : Memory} (h : m.Pairwise (fun c d => c.1 < d.1))
    (h' : m'.Pairwise (fun c d => c.1 < d.1)) (heq : ∀ a, Memory.listed m a = Memory.listed m' a) : m = m' := by
  induction m generalizing m' with
  | nil =>
    cases m' with
    | nil => rfl
    | cons c m' =>
      have := heq c.1
      simp [Memory.listed] at this
  | cons c m ih =>
    obtain ⟨k, b⟩ := c
    cases m' with
    | nil =>
      have := heq k
      simp at this
    | cons c' m' =>
      obtain ⟨k', b'⟩ := c'
      rw [List.pairwise_cons] at h h'
      have hk := heq k
      have hk' := heq k'
      simp only [Memory.listed_cons, if_true] at hk hk'
      have hkk : k = k' := by
        rcases Nat.lt_trichotomy k k' with hlt | heq' | hgt
        · rw [if_neg (by omega), Memory.listed_eq_none_of_lt fun c hc => Nat.lt_trans hlt (h'.1 c hc)] at hk
          simp at hk
        · exact heq'
        · rw [if_neg (by omega), Memory.listed_eq_none_of_lt fun c hc => Nat.lt_trans hgt (h.1 c hc)] at hk'
          simp at hk'
      subst hkk
      simp only [if_true, Option.some.injEq] at hk
      subst hk
      congr 1
      refine ih h.2 h'.2 fun a => ?_
      have ha := heq a
      simp only [Memory.listed_cons] at ha
      by_cases hka : k = a
      · subst hka
        rw [Memory.listed_eq_none_of_lt fun c hc => h.1 c hc, Memory.listed_eq_none_of_lt fun c hc => h'.1 c hc]
      · simpa [hka] using ha

/-- Canonical memories that hold the same determined byte at every address are the same data. -/
theorem Memory.eq_of_determined {font : Font} {m m' : Memory} (h : Memory.wf font m) (h' : Memory.wf font m')
    (heq : ∀ a, (Memory.listed m a).or (Memory.unlisted font a) = (Memory.listed m' a).or (Memory.unlisted font a)) :
    m = m' := by
  have entry : ∀ {n : Memory}, (∀ c ∈ n, c.1 < Config.memSize ∧ Memory.unlisted font c.1 ≠ some c.2) →
      ∀ a, Memory.listed n a ≠ none → Memory.listed n a ≠ Memory.unlisted font a := by
    intro n hn a
    induction n with
    | nil => intro h; exact absurd rfl h
    | cons c n ih =>
      obtain ⟨k, b⟩ := c
      rw [Memory.listed_cons]
      split
      · subst_vars
        exact fun _ => (hn (k, b) (by simp)).2.symm
      · exact ih fun c hc => hn c (List.mem_cons_of_mem _ hc)
  refine Memory.eq_of_listed h.1 h'.1 fun a => ?_
  have e := entry h.2 a
  have e' := entry h'.2 a
  have := heq a
  cases hm : Memory.listed m a <;> cases hm' : Memory.listed m' a <;> simp_all

/-! ### The machine's memory -/

/-- A byte of the machine's memory is read from FONT and the listed cells, and from nothing else. -/
theorem State.byte_eq (s : State) (a : Nat) : s.byte a = Memory.byte s.font s.mem a := rfl

/-- Reading memory depends on FONT and the listed cells only. -/
theorem State.byte_congr {s t : State} (hf : t.font = s.font) (hm : t.mem = s.mem) (a : Nat) : t.byte a = s.byte a := by
  rw [State.byte_eq, State.byte_eq, hf, hm]

/-- Memory that lists nothing holds FONT at 0x000-0x04F (70_reset_and_hazards.md R424). -/
theorem Memory.byte_nil_of_lt (font : Font) {a : Nat} (h : a < 80) : Memory.byte font [] a = font[a] := by
  simp [Memory.byte_eq, Memory.unlisted, h]

/-! ### The checked accesses (20_memory.md R84-R86) -/

theorem inRange_iff (a n : Nat) : inRange a n = true ↔ n = 0 ∨ a + n ≤ Config.memSize := by
  simp only [inRange, Config.memSize, Bool.or_eq_true, decide_eq_true_eq]
  omega

/-- `MemRead` answers the bytes exactly when the whole range is inside memory. -/
theorem State.memRead_eq_some (s : State) (n : Nat) (bytes : List Byte) :
    s.memRead n = some bytes ↔ inRange s.i.toNat n = true ∧ bytes = s.loadBytes s.i.toNat n := by
  unfold State.memRead
  split
  · rename_i h
    simp only [h, Option.some.injEq, true_and, eq_comm]
  · rename_i h
    simp [h]

theorem State.memRead_eq_none (s : State) (n : Nat) : s.memRead n = none ↔ inRange s.i.toNat n = false := by
  unfold State.memRead
  split <;> simp_all

/-- `MemWrite` writes every byte exactly when the whole range is inside memory, and else writes none. -/
theorem State.memWrite_eq_some (s t : State) (bytes : List Byte) :
    s.memWrite bytes = some t ↔ inRange s.i.toNat bytes.length = true ∧
      t = { s with mem := s.storeBytes s.i.toNat bytes } := by
  unfold State.memWrite
  split
  · rename_i h
    simp only [h, Option.some.injEq, true_and, eq_comm]
  · rename_i h
    simp [h]

theorem State.memWrite_eq_none (s : State) (bytes : List Byte) :
    s.memWrite bytes = none ↔ inRange s.i.toNat bytes.length = false := by
  unfold State.memWrite
  split <;> simp_all

@[simp] theorem length_bcdDigits (a : Byte) : (bcdDigits a).length = 3 := rfl

@[simp] theorem length_regBlock (v : Vector Byte 16) (x : RegIx) : (regBlock v x).length = x.val + 1 := by
  simp [regBlock]

theorem getElem_regBlock (v : Vector Byte 16) (x : RegIx) (k : Nat) (h : k < (regBlock v x).length) :
    (regBlock v x)[k] = v[k]'(by rw [length_regBlock] at h; omega) := by
  simp [regBlock]

end Sys2Proof.Machine
end

