-- ==== Sys2Proof/Laws/State.lean ====
section
/-!
SUPPORT. One lemma per field per update of the state, so that no later proof unfolds a record update.
-/

namespace Sys2Proof.Machine

/-! ### setV -/

@[simp] theorem State.setV_v (s : State) (x : RegIx) (b : Byte) :
    (s.setV x b).v = s.v.set x.val b := rfl

@[simp] theorem State.setV_i (s : State) (x : RegIx) (b : Byte) :
    (s.setV x b).i = s.i := rfl

@[simp] theorem State.setV_pc (s : State) (x : RegIx) (b : Byte) :
    (s.setV x b).pc = s.pc := rfl

@[simp] theorem State.setV_stack (s : State) (x : RegIx) (b : Byte) :
    (s.setV x b).stack = s.stack := rfl

@[simp] theorem State.setV_sp (s : State) (x : RegIx) (b : Byte) :
    (s.setV x b).sp = s.sp := rfl

@[simp] theorem State.setV_dt (s : State) (x : RegIx) (b : Byte) :
    (s.setV x b).dt = s.dt := rfl

@[simp] theorem State.setV_st (s : State) (x : RegIx) (b : Byte) :
    (s.setV x b).st = s.st := rfl

@[simp] theorem State.setV_keys (s : State) (x : RegIx) (b : Byte) :
    (s.setV x b).keys = s.keys := rfl

@[simp] theorem State.setV_fb (s : State) (x : RegIx) (b : Byte) :
    (s.setV x b).fb = s.fb := rfl

@[simp] theorem State.setV_redraw (s : State) (x : RegIx) (b : Byte) :
    (s.setV x b).redraw = s.redraw := rfl

@[simp] theorem State.setV_mem (s : State) (x : RegIx) (b : Byte) :
    (s.setV x b).mem = s.mem := rfl

@[simp] theorem State.setV_font (s : State) (x : RegIx) (b : Byte) :
    (s.setV x b).font = s.font := rfl

@[simp] theorem State.setV_run (s : State) (x : RegIx) (b : Byte) :
    (s.setV x b).run = s.run := rfl

@[simp] theorem State.setV_draws (s : State) (x : RegIx) (b : Byte) :
    (s.setV x b).draws = s.draws := rfl

@[simp] theorem State.setV_schedule (s : State) (x : RegIx) (b : Byte) :
    (s.setV x b).schedule = s.schedule := rfl

/-! ### setFlag -/

@[simp] theorem State.setFlag_v (s : State) (b : Byte) :
    (s.setFlag b).v = s.v.set 15 b := rfl

@[simp] theorem State.setFlag_i (s : State) (b : Byte) :
    (s.setFlag b).i = s.i := rfl

@[simp] theorem State.setFlag_pc (s : State) (b : Byte) :
    (s.setFlag b).pc = s.pc := rfl

@[simp] theorem State.setFlag_stack (s : State) (b : Byte) :
    (s.setFlag b).stack = s.stack := rfl

@[simp] theorem State.setFlag_sp (s : State) (b : Byte) :
    (s.setFlag b).sp = s.sp := rfl

@[simp] theorem State.setFlag_dt (s : State) (b : Byte) :
    (s.setFlag b).dt = s.dt := rfl

@[simp] theorem State.setFlag_st (s : State) (b : Byte) :
    (s.setFlag b).st = s.st := rfl

@[simp] theorem State.setFlag_keys (s : State) (b : Byte) :
    (s.setFlag b).keys = s.keys := rfl

@[simp] theorem State.setFlag_fb (s : State) (b : Byte) :
    (s.setFlag b).fb = s.fb := rfl

@[simp] theorem State.setFlag_redraw (s : State) (b : Byte) :
    (s.setFlag b).redraw = s.redraw := rfl

@[simp] theorem State.setFlag_mem (s : State) (b : Byte) :
    (s.setFlag b).mem = s.mem := rfl

@[simp] theorem State.setFlag_font (s : State) (b : Byte) :
    (s.setFlag b).font = s.font := rfl

@[simp] theorem State.setFlag_run (s : State) (b : Byte) :
    (s.setFlag b).run = s.run := rfl

@[simp] theorem State.setFlag_draws (s : State) (b : Byte) :
    (s.setFlag b).draws = s.draws := rfl

@[simp] theorem State.setFlag_schedule (s : State) (b : Byte) :
    (s.setFlag b).schedule = s.schedule := rfl

/-! ### advance -/

@[simp] theorem State.advance_v (s : State) :
    s.advance.v = s.v := rfl

@[simp] theorem State.advance_i (s : State) :
    s.advance.i = s.i := rfl

@[simp] theorem State.advance_pc (s : State) :
    s.advance.pc = s.pc + 2 := rfl

@[simp] theorem State.advance_stack (s : State) :
    s.advance.stack = s.stack := rfl

@[simp] theorem State.advance_sp (s : State) :
    s.advance.sp = s.sp := rfl

@[simp] theorem State.advance_dt (s : State) :
    s.advance.dt = s.dt := rfl

@[simp] theorem State.advance_st (s : State) :
    s.advance.st = s.st := rfl

@[simp] theorem State.advance_keys (s : State) :
    s.advance.keys = s.keys := rfl

@[simp] theorem State.advance_fb (s : State) :
    s.advance.fb = s.fb := rfl

@[simp] theorem State.advance_redraw (s : State) :
    s.advance.redraw = s.redraw := rfl

@[simp] theorem State.advance_mem (s : State) :
    s.advance.mem = s.mem := rfl

@[simp] theorem State.advance_font (s : State) :
    s.advance.font = s.font := rfl

@[simp] theorem State.advance_run (s : State) :
    s.advance.run = s.run := rfl

@[simp] theorem State.advance_draws (s : State) :
    s.advance.draws = s.draws := rfl

@[simp] theorem State.advance_schedule (s : State) :
    s.advance.schedule = s.schedule := rfl

/-! ### skip -/

@[simp] theorem State.skip_v (s : State) (c : Bool) :
    (s.skip c).v = s.v := by cases c <;> rfl

@[simp] theorem State.skip_i (s : State) (c : Bool) :
    (s.skip c).i = s.i := by cases c <;> rfl

@[simp] theorem State.skip_pc (s : State) (c : Bool) :
    (s.skip c).pc = if c then s.pc + 4 else s.pc + 2 := by
  cases c
  · rfl
  · simp [State.skip, BitVec.add_assoc]

@[simp] theorem State.skip_stack (s : State) (c : Bool) :
    (s.skip c).stack = s.stack := by cases c <;> rfl

@[simp] theorem State.skip_sp (s : State) (c : Bool) :
    (s.skip c).sp = s.sp := by cases c <;> rfl

@[simp] theorem State.skip_dt (s : State) (c : Bool) :
    (s.skip c).dt = s.dt := by cases c <;> rfl

@[simp] theorem State.skip_st (s : State) (c : Bool) :
    (s.skip c).st = s.st := by cases c <;> rfl

@[simp] theorem State.skip_keys (s : State) (c : Bool) :
    (s.skip c).keys = s.keys := by cases c <;> rfl

@[simp] theorem State.skip_fb (s : State) (c : Bool) :
    (s.skip c).fb = s.fb := by cases c <;> rfl

@[simp] theorem State.skip_redraw (s : State) (c : Bool) :
    (s.skip c).redraw = s.redraw := by cases c <;> rfl

@[simp] theorem State.skip_mem (s : State) (c : Bool) :
    (s.skip c).mem = s.mem := by cases c <;> rfl

@[simp] theorem State.skip_font (s : State) (c : Bool) :
    (s.skip c).font = s.font := by cases c <;> rfl

@[simp] theorem State.skip_run (s : State) (c : Bool) :
    (s.skip c).run = s.run := by cases c <;> rfl

@[simp] theorem State.skip_draws (s : State) (c : Bool) :
    (s.skip c).draws = s.draws := by cases c <;> rfl

@[simp] theorem State.skip_schedule (s : State) (c : Bool) :
    (s.skip c).schedule = s.schedule := by cases c <;> rfl

/-! ### timerCheck -/

@[simp] theorem State.timerCheck_v (s : State) :
    s.timerCheck.v = s.v := rfl

@[simp] theorem State.timerCheck_i (s : State) :
    s.timerCheck.i = s.i := rfl

@[simp] theorem State.timerCheck_pc (s : State) :
    s.timerCheck.pc = s.pc := rfl

@[simp] theorem State.timerCheck_stack (s : State) :
    s.timerCheck.stack = s.stack := rfl

@[simp] theorem State.timerCheck_sp (s : State) :
    s.timerCheck.sp = s.sp := rfl

@[simp] theorem State.timerCheck_dt (s : State) :
    s.timerCheck.dt = s.dt.check := rfl

@[simp] theorem State.timerCheck_st (s : State) :
    s.timerCheck.st = s.st.check := rfl

@[simp] theorem State.timerCheck_keys (s : State) :
    s.timerCheck.keys = s.keys := rfl

@[simp] theorem State.timerCheck_fb (s : State) :
    s.timerCheck.fb = s.fb := rfl

@[simp] theorem State.timerCheck_redraw (s : State) :
    s.timerCheck.redraw = s.redraw := rfl

@[simp] theorem State.timerCheck_mem (s : State) :
    s.timerCheck.mem = s.mem := rfl

@[simp] theorem State.timerCheck_font (s : State) :
    s.timerCheck.font = s.font := rfl

@[simp] theorem State.timerCheck_run (s : State) :
    s.timerCheck.run = s.run := rfl

@[simp] theorem State.timerCheck_draws (s : State) :
    s.timerCheck.draws = s.draws := rfl

@[simp] theorem State.timerCheck_schedule (s : State) :
    s.timerCheck.schedule = s.schedule := rfl

/-! ### keyWrite -/

@[simp] theorem State.keyWrite_v (s : State) (k : Fin 16) (p : Bool) :
    (s.keyWrite k p).v = s.v := rfl

@[simp] theorem State.keyWrite_i (s : State) (k : Fin 16) (p : Bool) :
    (s.keyWrite k p).i = s.i := rfl

@[simp] theorem State.keyWrite_pc (s : State) (k : Fin 16) (p : Bool) :
    (s.keyWrite k p).pc = s.pc := rfl

@[simp] theorem State.keyWrite_stack (s : State) (k : Fin 16) (p : Bool) :
    (s.keyWrite k p).stack = s.stack := rfl

@[simp] theorem State.keyWrite_sp (s : State) (k : Fin 16) (p : Bool) :
    (s.keyWrite k p).sp = s.sp := rfl

@[simp] theorem State.keyWrite_dt (s : State) (k : Fin 16) (p : Bool) :
    (s.keyWrite k p).dt = s.dt := rfl

@[simp] theorem State.keyWrite_st (s : State) (k : Fin 16) (p : Bool) :
    (s.keyWrite k p).st = s.st := rfl

@[simp] theorem State.keyWrite_keys (s : State) (k : Fin 16) (p : Bool) :
    (s.keyWrite k p).keys = s.keys.set k.val p := rfl

@[simp] theorem State.keyWrite_fb (s : State) (k : Fin 16) (p : Bool) :
    (s.keyWrite k p).fb = s.fb := rfl

@[simp] theorem State.keyWrite_redraw (s : State) (k : Fin 16) (p : Bool) :
    (s.keyWrite k p).redraw = s.redraw := rfl

@[simp] theorem State.keyWrite_mem (s : State) (k : Fin 16) (p : Bool) :
    (s.keyWrite k p).mem = s.mem := rfl

@[simp] theorem State.keyWrite_font (s : State) (k : Fin 16) (p : Bool) :
    (s.keyWrite k p).font = s.font := rfl

@[simp] theorem State.keyWrite_run (s : State) (k : Fin 16) (p : Bool) :
    (s.keyWrite k p).run = s.run := rfl

@[simp] theorem State.keyWrite_draws (s : State) (k : Fin 16) (p : Bool) :
    (s.keyWrite k p).draws = s.draws := rfl

@[simp] theorem State.keyWrite_schedule (s : State) (k : Fin 16) (p : Bool) :
    (s.keyWrite k p).schedule = s.schedule := rfl

/-! ### Registers -/

theorem State.getV_setV (s : State) (x r : RegIx) (b : Byte) :
    (s.setV x b).getV r = if x = r then b else s.getV r := by
  simp only [State.getV, State.setV_v, Vector.getElem_set, Fin.ext_iff]

@[simp] theorem State.getV_setV_self (s : State) (x : RegIx) (b : Byte) : (s.setV x b).getV x = b := by
  simp [State.getV_setV]

theorem State.getV_setV_ne (s : State) {x r : RegIx} (b : Byte) (h : x ≠ r) : (s.setV x b).getV r = s.getV r := by
  simp [State.getV_setV, h]

theorem State.getV_setFlag (s : State) (r : RegIx) (b : Byte) :
    (s.setFlag b).getV r = if 15 = r then b else s.getV r := s.getV_setV 15 r b

/-- Reading a register depends on the register file only. -/
theorem State.getV_congr {s t : State} (h : t.v = s.v) (r : RegIx) : t.getV r = s.getV r := by
  rw [State.getV, State.getV, h]

@[simp] theorem State.getV_advance (s : State) (r : RegIx) : s.advance.getV r = s.getV r := rfl

@[simp] theorem State.getV_timerCheck (s : State) (r : RegIx) : s.timerCheck.getV r = s.getV r := rfl

end Sys2Proof.Machine
end

