-- ==== Sys2Proof/Laws/Ops.lean ====
section
/-!
SUPPORT. What each shared operation can do, said once: fault, push, pop, key read, key scan, register block load,
fetch, cycle and step.
-/

namespace Sys2Proof.Machine

/-! ### Faults, stack, keys -/

/-- Raising a fault answers the same state in the Faulted run state, with the record of R61. -/
theorem raise_eq (c : FaultCause) (w : Option Word) (s : State) :
    raise c w s = .next { s with run := .faulted ⟨c, s.pc, w⟩ } := rfl

theorem State.push_of_lt (s : State) (w : Word) (h : s.sp.val < 16) :
    s.push w = some { s with stack := s.stack.set s.sp.val w, sp := ⟨s.sp.val + 1, by omega⟩ } := by
  simp [State.push, h]

theorem State.push_eq_none (s : State) (w : Word) : s.push w = none ↔ s.sp.val = 16 := by
  unfold State.push
  split <;> simp <;> omega

theorem State.pop_of_pos (s : State) (h : 0 < s.sp.val) :
    s.pop = some (s.stack[s.sp.val - 1], { s with sp := ⟨s.sp.val - 1, by omega⟩ }) := by
  simp [State.pop, h]

theorem State.pop_eq_none (s : State) : s.pop = none ↔ s.sp.val = 0 := by
  unfold State.pop
  split <;> simp <;> omega

theorem State.keyRead_of_le (s : State) (k : Byte) (h : k.toNat < 16) : s.keyRead k = some s.keys[k.toNat] := by
  simp [State.keyRead, h]

theorem State.keyRead_eq_none (s : State) (k : Byte) : s.keyRead k = none ↔ 15 < k.toNat := by
  simp [State.keyRead]
  omega

/-- No key is pressed exactly when the scan finds none. -/
theorem highestKey_eq_none (keys : Vector Bool 16) : highestKey keys = none ↔ ∀ k : Fin 16, keys[k.val] = false := by
  simp [highestKey]

/-- In a falling list, the first element that passes is the greatest one that passes. -/
theorem find?_falling {p : Fin 16 → Bool} {l : List (Fin 16)} (hl : l.Pairwise (fun j k => k < j)) {k : Fin 16}
    (hk : k ∈ l) : l.find? p = some k ↔ p k = true ∧ ∀ j ∈ l, k < j → p j = false := by
  induction l with
  | nil => simp at hk
  | cons a l ih =>
    rw [List.pairwise_cons] at hl
    rw [List.find?_cons]
    rcases List.mem_cons.1 hk with rfl | hk
    · split
      · rename_i ha
        simp only [true_iff, List.forall_mem_cons]
        exact ⟨ha, fun h => absurd h (lt_irrefl k), fun j hj h => absurd (hl.1 j hj) (not_lt.2 h.le)⟩
      · rename_i ha
        constructor
        · intro h
          exact absurd (List.find?_some h) (by simp [ha])
        · intro h
          exact absurd h.1 (by simp [ha])
    · have hka := hl.1 k hk
      split
      · rename_i ha
        simp only [Option.some.injEq, List.forall_mem_cons, hka, ha, Bool.true_eq_false, forall_const, false_and,
          and_false, iff_false]
        exact hka.ne'
      · rename_i ha
        rw [ih hl.2 hk]
        simp [ha]

/-- The scan finds a pressed key above which none is pressed. -/
theorem highestKey_eq_some (keys : Vector Bool 16) (k : Fin 16) :
    highestKey keys = some k ↔ keys[k.val] = true ∧ ∀ j : Fin 16, k < j → keys[j.val] = false := by
  rw [highestKey, find?_falling (by decide) (by simp)]
  simp

/-! ### Register blocks -/

theorem getElem_fillV (v : Vector Byte 16) (k : Nat) (bytes : List Byte) (r : Nat) (hr : r < 16) :
    (fillV v k bytes)[r] = if h : k ≤ r ∧ r < k + bytes.length then bytes[r - k] else v[r] := by
  induction bytes generalizing v k with
  | nil =>
    rw [fillV, dif_neg]
    simp only [List.length_nil]
    omega
  | cons b rest ih =>
    rw [fillV, ih]
    by_cases h1 : k + 1 ≤ r ∧ r < k + 1 + rest.length
    · rw [dif_pos h1, dif_pos ⟨by omega, by rw [List.length_cons]; omega⟩]
      have : r - k = (r - (k + 1)) + 1 := by omega
      simp only [this, List.getElem_cons_succ]
    · rw [dif_neg h1]
      by_cases h2 : r = k
      · subst h2
        rw [dif_pos hr, dif_pos (show r ≤ r ∧ r < r + (b :: rest).length by rw [List.length_cons]; omega)]
        simp
      · have h3 : ¬(k ≤ r ∧ r < k + (b :: rest).length) := by
          rw [List.length_cons]
          omega
        rw [dif_neg h3]
        split
        · rw [Vector.getElem_set_ne _ _ (by omega)]
        · rfl

/-! ### Cycle and step -/

/-- The fetch succeeds exactly at an even `pc` of at most 0xFFE, with the two bytes big-endian. -/
theorem State.fetch_eq_ok (s : State) (w : Word) :
    s.fetch = .ok w ↔ s.pc.toNat % 2 = 0 ∧ s.pc.toNat ≤ 0xFFE ∧
      w = s.byte s.pc.toNat ++ s.byte (s.pc.toNat + 1) := by
  unfold State.fetch
  split
  · simp
    omega
  · split
    · simp
      omega
    · simp only [Except.ok.injEq]
      constructor
      · rintro rfl
        exact ⟨by omega, by omega, rfl⟩
      · exact fun h => h.2.2.symm

/-- The fetch reads `pc` and memory only. -/
theorem State.fetch_congr {s t : State} (hpc : t.pc = s.pc) (hfont : t.font = s.font) (hmem : t.mem = s.mem) :
    t.fetch = s.fetch := by
  simp only [State.fetch, hpc, State.byte_congr hfont hmem]

/-- A cycle's end answers what the execute phase answered, with the timer check when the core is Running. -/
theorem endCycle_eq_next {o : Result} {t : State} (h : endCycle o = .next t) :
    ∃ u, o = .next u ∧ ((u.run = .running ∧ t = u.timerCheck) ∨ (u.run ≠ .running ∧ t = u)) := by
  cases o with
  | next u =>
    refine ⟨u, rfl, ?_⟩
    simp only [endCycle] at h
    split at h
    · rename_i hr
      exact .inl ⟨hr, by simpa using h.symm⟩
    · rename_i hr
      exact .inr ⟨by simp [hr], by simpa using h.symm⟩
  | fault f => cases f
  | refused r => simp [endCycle] at h

/-- Everything a cycle that answers a next state can have done. -/
theorem cycle_cases {s t : State} (h : cycle s = .next t) :
    s.run = .running ∧
      ((∃ c, s.fetch = .error c ∧ raise c none s = .next t) ∨
       (∃ w, s.fetch = .ok w ∧ decode w = none ∧ raise .unknownOpcode (some w) s = .next t) ∨
       (∃ w i u, s.fetch = .ok w ∧ decode w = some i ∧ exec i s = .next u ∧
          ((u.run = .running ∧ t = u.timerCheck) ∨ (u.run ≠ .running ∧ t = u)))) := by
  unfold cycle at h
  split at h
  · simp at h
  · rename_i hr
    refine ⟨hr, ?_⟩
    split at h
    · rename_i c hf
      exact .inl ⟨c, hf, h⟩
    · rename_i w hf
      unfold runWord at h
      split at h
      · rename_i hd
        exact .inr (.inl ⟨w, hf, hd, h⟩)
      · rename_i i hd
        obtain ⟨u, hu, hc⟩ := endCycle_eq_next h
        exact .inr (.inr ⟨w, i, u, hf, hd, hu, hc⟩)

@[simp] theorem perform_cycle (s : State) : perform .cycle s = cycle s := rfl

/-- With an empty schedule a step is a cycle. -/
theorem step_of_empty (s : State) (h : s.schedule = []) : step s = cycle s := by
  simp [step, State.nextAction, h]

/-- With an action at the head of the schedule a step does that action. -/
theorem step_of_cons (s : State) (a : Action) (rest : List Action) (h : s.schedule = a :: rest) :
    step s = perform a { s with schedule := rest } := by
  simp [step, State.nextAction, h]

/-- The next action is a cycle of the same state, or the head of the schedule, taken off it. -/
theorem State.nextAction_cases (s : State) :
    (s.schedule = [] ∧ s.nextAction = (.cycle, s)) ∨
    ∃ a rest, s.schedule = a :: rest ∧ s.nextAction = (a, { s with schedule := rest }) := by
  unfold State.nextAction
  cases h : s.schedule with
  | nil => exact .inl ⟨rfl, rfl⟩
  | cons a rest => exact .inr ⟨a, rest, rfl, rfl⟩

/-- A launch of a program that fits is the reset state with the program in it; any other is refused. -/
theorem launch_eq (p : Option (List Byte)) (s : State) :
    launch p s =
      if (p.getD Config.defaultProgram).length ≤ 3584 then
        .next { State.resetWith s.font with
          mem := Memory.storeBytes s.font [] 0x200 (p.getD Config.defaultProgram)
          draws := s.draws
          schedule := s.schedule }
      else .refused .programTooLong := by
  unfold launch programFits
  split
  · rename_i h
    rw [if_pos (show _ ≤ 3584 from of_decide_eq_true h)]
    rfl
  · rename_i h
    rw [if_neg (show ¬ _ ≤ 3584 from fun hl => h (decide_eq_true hl))]

end Sys2Proof.Machine
end

