-- ==== Sys2Proof/Laws/Exec.lean ====
section
/-!
SUPPORT. What each meaning that checks something can do, said once: the check passes and the effect is this, or it
fails and the fault is that. Every other meaning answers its one next state by definition.
-/

namespace Sys2Proof.Machine

theorem raise_eq_faultedWith (c : FaultCause) (w : Option Word) (s : State) : raise c w s = .next (s.faultedWith c w) :=
  rfl

/-- A skip changes `pc` and nothing else. -/
theorem State.skip_eq (s : State) (c : Bool) : s.skip c = { s with pc := if c then s.pc + 4 else s.pc + 2 } := by
  have h : s.pc + 2 + 2 = s.pc + 4 := by rw [BitVec.add_assoc]; rfl
  cases c
  · rfl
  · simp only [State.skip, State.advance, if_true, h]

theorem State.memRead_of_inside (s : State) {n : Nat} (h : InsideMemory s.i.toNat n) :
    s.memRead n = some (s.loadBytes s.i.toNat n) :=
  (State.memRead_eq_some _ _ _).2 ⟨(inRange_iff _ _).2 (by simp only [InsideMemory, Config.memSize] at *; omega), rfl⟩

theorem State.memRead_of_outside (s : State) {n : Nat} (h : ¬ InsideMemory s.i.toNat n) : s.memRead n = none :=
  (State.memRead_eq_none _ _).2 (by
    rw [← Bool.not_eq_true, inRange_iff]; simp only [InsideMemory, Config.memSize] at *; omega)

theorem State.memWrite_of_inside (s : State) {bytes : List Byte} (h : InsideMemory s.i.toNat bytes.length) :
    s.memWrite bytes = some { s with mem := s.storeBytes s.i.toNat bytes } :=
  (State.memWrite_eq_some _ _ _).2 ⟨(inRange_iff _ _).2 (by simp only [InsideMemory, Config.memSize] at *; omega), rfl⟩

theorem State.memWrite_of_outside (s : State) {bytes : List Byte} (h : ¬ InsideMemory s.i.toNat bytes.length) :
    s.memWrite bytes = none :=
  (State.memWrite_eq_none _ _).2 (by
    rw [← Bool.not_eq_true, inRange_iff]; simp only [InsideMemory, Config.memSize] at *; omega)

theorem execRet_eq (s : State) : execRet s =
    if h : 0 < s.sp.val then
      .next { s with sp := ⟨s.sp.val - 1, by omega⟩, pc := s.stack[s.sp.val - 1] + 2 }
    else .next (s.faultedWith .stackUnderflow (some (encode .ret))) := by
  split
  · rename_i h
    simp only [execRet, State.pop_of_pos s h]
  · simp only [execRet, (State.pop_eq_none s).2 (by omega), raise_eq_faultedWith]

theorem execCall_eq (nnn : Addr12) (s : State) : execCall nnn s =
    if h : s.sp.val < 16 then
      .next { s with stack := s.stack.set s.sp.val s.pc, sp := ⟨s.sp.val + 1, by omega⟩, pc := zextAddr nnn }
    else .next (s.faultedWith .stackOverflow (some (encode (.call nnn)))) := by
  split
  · rename_i h
    simp only [execCall, State.push_of_lt s s.pc h]
  · simp only [execCall, (State.push_eq_none s s.pc).2 (by omega), raise_eq_faultedWith]

theorem execSkp_eq (x : RegIx) (s : State) : execSkp x s =
    if h : (s.getV x).toNat < 16 then .next (s.skip s.keys[(s.getV x).toNat])
    else .next (s.faultedWith .keyIndexOutOfRange (some (encode (.skp x)))) := by
  split
  · rename_i h
    simp only [execSkp, State.keyRead_of_le s _ h]
  · simp only [execSkp, (State.keyRead_eq_none s (s.getV x)).2 (by omega), raise_eq_faultedWith]

theorem execSknp_eq (x : RegIx) (s : State) : execSknp x s =
    if h : (s.getV x).toNat < 16 then .next (s.skip !s.keys[(s.getV x).toNat])
    else .next (s.faultedWith .keyIndexOutOfRange (some (encode (.sknp x)))) := by
  split
  · rename_i h
    simp only [execSknp, State.keyRead_of_le s _ h]
  · simp only [execSknp, (State.keyRead_eq_none s (s.getV x)).2 (by omega), raise_eq_faultedWith]

/-- Dxyn inside memory. -/
theorem execDrw_of_inside (x y : RegIx) (n : Height) (s : State) (h : InsideMemory s.i.toNat n.val) :
    execDrw x y n s =
      .next { (s.setFlag (collisionFlag (drawSprite s.fb (s.getV x) (s.getV y)
          (s.loadBytes s.i.toNat n.val)).2)).advance with
        fb := (drawSprite s.fb (s.getV x) (s.getV y) (s.loadBytes s.i.toNat n.val)).1
        redraw := true } := by
  simp only [execDrw, State.memRead_of_inside s h]

/-- Dxyn outside memory. -/
theorem execDrw_of_outside (x y : RegIx) (n : Height) (s : State) (h : ¬ InsideMemory s.i.toNat n.val) :
    execDrw x y n s = .next (s.faultedWith .addressOutOfRange (some (encode (.drw x y n)))) := by
  simp only [execDrw, State.memRead_of_outside s h, raise_eq_faultedWith]

/-- Fx33 inside memory. -/
theorem execLdBVx_of_inside (x : RegIx) (s : State) (h : InsideMemory s.i.toNat 3) :
    execLdBVx x s =
      .next { s.advance with mem := s.storeBytes s.i.toNat (bcdDigits (s.getV x)) } := by
  simp only [execLdBVx, State.memWrite_of_inside s (bytes := bcdDigits (s.getV x)) h]
  rfl

/-- Fx33 outside memory. -/
theorem execLdBVx_of_outside (x : RegIx) (s : State) (h : ¬ InsideMemory s.i.toNat 3) :
    execLdBVx x s = .next (s.faultedWith .addressOutOfRange (some (encode (.ldBVx x)))) := by
  simp only [execLdBVx, State.memWrite_of_outside s (bytes := bcdDigits (s.getV x)) h, raise_eq_faultedWith]

/-- Fx55 inside memory. -/
theorem execLdMemVx_of_inside (x : RegIx) (s : State) (h : InsideMemory s.i.toNat (x.val + 1)) :
    execLdMemVx x s = .next { s.advance with mem := s.storeBytes s.i.toNat (regBlock s.v x) } := by
  simp only [execLdMemVx, State.memWrite_of_inside s (bytes := regBlock s.v x) (by rw [length_regBlock]; exact h)]
  rfl

/-- Fx55 outside memory. -/
theorem execLdMemVx_of_outside (x : RegIx) (s : State) (h : ¬ InsideMemory s.i.toNat (x.val + 1)) :
    execLdMemVx x s = .next (s.faultedWith .addressOutOfRange (some (encode (.ldMemVx x)))) := by
  simp only [execLdMemVx, State.memWrite_of_outside s (bytes := regBlock s.v x) (by rw [length_regBlock]; exact h),
    raise_eq_faultedWith]

/-- Fx65 inside memory. -/
theorem execLdVxMem_of_inside (x : RegIx) (s : State) (h : InsideMemory s.i.toNat (x.val + 1)) :
    execLdVxMem x s = .next { s.advance with v := fillV s.v 0 (s.loadBytes s.i.toNat (x.val + 1)) } := by
  simp only [execLdVxMem, State.memRead_of_inside s h]

/-- Fx65 outside memory. -/
theorem execLdVxMem_of_outside (x : RegIx) (s : State) (h : ¬ InsideMemory s.i.toNat (x.val + 1)) :
    execLdVxMem x s = .next (s.faultedWith .addressOutOfRange (some (encode (.ldVxMem x)))) := by
  simp only [execLdVxMem, State.memRead_of_outside s h, raise_eq_faultedWith]

/-- Fx1E, both ways. -/
theorem execAddIVx_eq (x : RegIx) (s : State) : execAddIVx x s =
    if s.i.toNat + (s.getV x).toNat ≤ 0xFFFF then
      .next { s.advance with i := BitVec.ofNat 16 (s.i.toNat + (s.getV x).toNat) }
    else .next (s.faultedWith .indexOverflow (some (encode (.addIVx x)))) := by
  unfold execAddIVx indexSum
  split
  · rw [if_neg (by omega), raise_eq_faultedWith]
  · rw [if_pos (by omega)]

/-- Fx0A, both ways: the highest pressed key is taken, or nothing changes. -/
theorem execLdVxK_cases (x : RegIx) (s : State) :
    (∃ k, highestKey s.keys = some k ∧ execLdVxK x s = .next (s.setV x (BitVec.ofNat 8 k.val)).advance) ∨
    (highestKey s.keys = none ∧ execLdVxK x s = .next s) := by
  unfold execLdVxK
  cases h : highestKey s.keys with
  | some k => exact .inl ⟨k, rfl, rfl⟩
  | none => exact .inr ⟨rfl, rfl⟩

/-- Every answer of `exec` is a next state. -/
theorem exec_next (i : Instr) (s : State) : ∃ t, exec i s = .next t := by
  cases i with
  | ret => rw [exec, execRet_eq]; split <;> exact ⟨_, rfl⟩
  | call nnn => rw [exec, execCall_eq]; split <;> exact ⟨_, rfl⟩
  | skp x => rw [exec, execSkp_eq]; split <;> exact ⟨_, rfl⟩
  | sknp x => rw [exec, execSknp_eq]; split <;> exact ⟨_, rfl⟩
  | addIVx x => rw [exec, execAddIVx_eq]; split <;> exact ⟨_, rfl⟩
  | ldVxK x => rcases execLdVxK_cases x s with ⟨k, -, h⟩ | ⟨-, h⟩ <;> exact ⟨_, h⟩
  | drw x y n =>
    by_cases h : InsideMemory s.i.toNat n.val
    · exact ⟨_, execDrw_of_inside x y n s h⟩
    · exact ⟨_, execDrw_of_outside x y n s h⟩
  | ldBVx x =>
    by_cases h : InsideMemory s.i.toNat 3
    · exact ⟨_, execLdBVx_of_inside x s h⟩
    · exact ⟨_, execLdBVx_of_outside x s h⟩
  | ldMemVx x =>
    by_cases h : InsideMemory s.i.toNat (x.val + 1)
    · exact ⟨_, execLdMemVx_of_inside x s h⟩
    · exact ⟨_, execLdMemVx_of_outside x s h⟩
  | ldVxMem x =>
    by_cases h : InsideMemory s.i.toNat (x.val + 1)
    · exact ⟨_, execLdVxMem_of_inside x s h⟩
    · exact ⟨_, execLdVxMem_of_outside x s h⟩
  | _ => exact ⟨_, rfl⟩

end Sys2Proof.Machine
end

