-- ==== Sys2Proof/Laws/PerInstr.lean ====
section
/-!
SUPPORT. Per-instruction lemmas: the encoder writes the fixed bits that the instruction's row of opcode_table.json has.
-/

namespace Sys2Proof.Laws

/-- The row of the opcode table that has the instruction's mnemonic accepts the instruction's word. -/
def TableRow.Statement (i : Instr) : Prop :=
  ∃ r ∈ opcodeTable, r.mnemonic = i.mnemonic ∧ r.accepts (encode i) = true

/-- A row accepts a word whose masked bits are its pattern. -/
theorem accepts_of_and {mnemonic : String} {mask pattern w : Word} (h : w &&& mask = pattern) :
    OpcodeRow.accepts ⟨mnemonic, mask, pattern⟩ w = true := by
  simp [OpcodeRow.accepts, h]

theorem TableRow.cls : TableRow.Statement .cls :=
  ⟨⟨"CLS", 0xFFFF, 0x00E0⟩, by decide, rfl, accepts_of_and (by rw [and_fullMask]; simp [encode]; try rfl)⟩

theorem TableRow.ret : TableRow.Statement .ret :=
  ⟨⟨"RET", 0xFFFF, 0x00EE⟩, by decide, rfl, accepts_of_and (by rw [and_fullMask]; simp [encode]; try rfl)⟩

theorem TableRow.jp (nnn : Addr12) : TableRow.Statement (.jp nnn) :=
  ⟨⟨"JP_nnn", 0xF000, 0x1000⟩, by decide, rfl, accepts_of_and (by rw [and_topMask]; simp [encode]; try rfl)⟩

theorem TableRow.call (nnn : Addr12) : TableRow.Statement (.call nnn) :=
  ⟨⟨"CALL_nnn", 0xF000, 0x2000⟩, by decide, rfl, accepts_of_and (by rw [and_topMask]; simp [encode]; try rfl)⟩

theorem TableRow.seImm (x : RegIx) (kk : Byte) : TableRow.Statement (.seImm x kk) :=
  ⟨⟨"SE_Vx__kk", 0xF000, 0x3000⟩, by decide, rfl, accepts_of_and (by rw [and_topMask]; simp [encode]; try rfl)⟩

theorem TableRow.sneImm (x : RegIx) (kk : Byte) : TableRow.Statement (.sneImm x kk) :=
  ⟨⟨"SNE_Vx__kk", 0xF000, 0x4000⟩, by decide, rfl, accepts_of_and (by rw [and_topMask]; simp [encode]; try rfl)⟩

theorem TableRow.seReg (x : RegIx) (y : RegIx) : TableRow.Statement (.seReg x y) :=
  ⟨⟨"SE_Vx__Vy", 0xF00F, 0x5000⟩, by decide, rfl, accepts_of_and (by rw [and_selectorMask]; simp [encode]; try rfl)⟩

theorem TableRow.ldImm (x : RegIx) (kk : Byte) : TableRow.Statement (.ldImm x kk) :=
  ⟨⟨"LD_Vx__kk", 0xF000, 0x6000⟩, by decide, rfl, accepts_of_and (by rw [and_topMask]; simp [encode]; try rfl)⟩

theorem TableRow.addImm (x : RegIx) (kk : Byte) : TableRow.Statement (.addImm x kk) :=
  ⟨⟨"ADD_Vx__kk", 0xF000, 0x7000⟩, by decide, rfl, accepts_of_and (by rw [and_topMask]; simp [encode]; try rfl)⟩

theorem TableRow.ldReg (x : RegIx) (y : RegIx) : TableRow.Statement (.ldReg x y) :=
  ⟨⟨"LD_Vx__Vy", 0xF00F, 0x8000⟩, by decide, rfl, accepts_of_and (by rw [and_selectorMask]; simp [encode]; try rfl)⟩

theorem TableRow.orReg (x : RegIx) (y : RegIx) : TableRow.Statement (.orReg x y) :=
  ⟨⟨"OR_Vx__Vy", 0xF00F, 0x8001⟩, by decide, rfl, accepts_of_and (by rw [and_selectorMask]; simp [encode]; try rfl)⟩

theorem TableRow.andReg (x : RegIx) (y : RegIx) : TableRow.Statement (.andReg x y) :=
  ⟨⟨"AND_Vx__Vy", 0xF00F, 0x8002⟩, by decide, rfl, accepts_of_and (by rw [and_selectorMask]; simp [encode]; try rfl)⟩

theorem TableRow.xorReg (x : RegIx) (y : RegIx) : TableRow.Statement (.xorReg x y) :=
  ⟨⟨"XOR_Vx__Vy", 0xF00F, 0x8003⟩, by decide, rfl, accepts_of_and (by rw [and_selectorMask]; simp [encode]; try rfl)⟩

theorem TableRow.addReg (x : RegIx) (y : RegIx) : TableRow.Statement (.addReg x y) :=
  ⟨⟨"ADD_Vx__Vy", 0xF00F, 0x8004⟩, by decide, rfl, accepts_of_and (by rw [and_selectorMask]; simp [encode]; try rfl)⟩

theorem TableRow.sub (x : RegIx) (y : RegIx) : TableRow.Statement (.sub x y) :=
  ⟨⟨"SUB_Vx__Vy", 0xF00F, 0x8005⟩, by decide, rfl, accepts_of_and (by rw [and_selectorMask]; simp [encode]; try rfl)⟩

theorem TableRow.shr (x : RegIx) (y : RegIx) : TableRow.Statement (.shr x y) :=
  ⟨⟨"SHR_Vx____Vy", 0xF00F, 0x8006⟩, by decide, rfl, accepts_of_and (by rw [and_selectorMask]; simp [encode]; try rfl)⟩

theorem TableRow.subn (x : RegIx) (y : RegIx) : TableRow.Statement (.subn x y) :=
  ⟨⟨"SUBN_Vx__Vy", 0xF00F, 0x8007⟩, by decide, rfl, accepts_of_and (by rw [and_selectorMask]; simp [encode]; try rfl)⟩

theorem TableRow.shl (x : RegIx) (y : RegIx) : TableRow.Statement (.shl x y) :=
  ⟨⟨"SHL_Vx____Vy", 0xF00F, 0x800E⟩, by decide, rfl, accepts_of_and (by rw [and_selectorMask]; simp [encode]; try rfl)⟩

theorem TableRow.sneReg (x : RegIx) (y : RegIx) : TableRow.Statement (.sneReg x y) :=
  ⟨⟨"SNE_Vx__Vy", 0xF00F, 0x9000⟩, by decide, rfl, accepts_of_and (by rw [and_selectorMask]; simp [encode]; try rfl)⟩

theorem TableRow.ldI (nnn : Addr12) : TableRow.Statement (.ldI nnn) :=
  ⟨⟨"LD_I__nnn", 0xF000, 0xA000⟩, by decide, rfl, accepts_of_and (by rw [and_topMask]; simp [encode]; try rfl)⟩

theorem TableRow.jpV0 (nnn : Addr12) : TableRow.Statement (.jpV0 nnn) :=
  ⟨⟨"JP_V0__nnn", 0xF000, 0xB000⟩, by decide, rfl, accepts_of_and (by rw [and_topMask]; simp [encode]; try rfl)⟩

theorem TableRow.rnd (x : RegIx) (kk : Byte) : TableRow.Statement (.rnd x kk) :=
  ⟨⟨"RND_Vx__kk", 0xF000, 0xC000⟩, by decide, rfl, accepts_of_and (by rw [and_topMask]; simp [encode]; try rfl)⟩

theorem TableRow.drw (x : RegIx) (y : RegIx) (n : Height) : TableRow.Statement (.drw x y n) :=
  ⟨⟨"DRW_Vx__Vy__n", 0xF000, 0xD000⟩, by decide, rfl, accepts_of_and (by rw [and_topMask]; simp [encode]; try rfl)⟩

theorem TableRow.skp (x : RegIx) : TableRow.Statement (.skp x) :=
  ⟨⟨"SKP_Vx", 0xF0FF, 0xE09E⟩, by decide, rfl, accepts_of_and (by rw [and_functionMask]; simp [encode]; try rfl)⟩

theorem TableRow.sknp (x : RegIx) : TableRow.Statement (.sknp x) :=
  ⟨⟨"SKNP_Vx", 0xF0FF, 0xE0A1⟩, by decide, rfl, accepts_of_and (by rw [and_functionMask]; simp [encode]; try rfl)⟩

theorem TableRow.ldVxDt (x : RegIx) : TableRow.Statement (.ldVxDt x) :=
  ⟨⟨"LD_Vx__DT", 0xF0FF, 0xF007⟩, by decide, rfl, accepts_of_and (by rw [and_functionMask]; simp [encode]; try rfl)⟩

theorem TableRow.ldVxK (x : RegIx) : TableRow.Statement (.ldVxK x) :=
  ⟨⟨"LD_Vx__K", 0xF0FF, 0xF00A⟩, by decide, rfl, accepts_of_and (by rw [and_functionMask]; simp [encode]; try rfl)⟩

theorem TableRow.ldDtVx (x : RegIx) : TableRow.Statement (.ldDtVx x) :=
  ⟨⟨"LD_DT__Vx", 0xF0FF, 0xF015⟩, by decide, rfl, accepts_of_and (by rw [and_functionMask]; simp [encode]; try rfl)⟩

theorem TableRow.ldStVx (x : RegIx) : TableRow.Statement (.ldStVx x) :=
  ⟨⟨"LD_ST__Vx", 0xF0FF, 0xF018⟩, by decide, rfl, accepts_of_and (by rw [and_functionMask]; simp [encode]; try rfl)⟩

theorem TableRow.addIVx (x : RegIx) : TableRow.Statement (.addIVx x) :=
  ⟨⟨"ADD_I__Vx", 0xF0FF, 0xF01E⟩, by decide, rfl, accepts_of_and (by rw [and_functionMask]; simp [encode]; try rfl)⟩

theorem TableRow.ldFVx (x : RegIx) : TableRow.Statement (.ldFVx x) :=
  ⟨⟨"LD_F__Vx", 0xF0FF, 0xF029⟩, by decide, rfl, accepts_of_and (by rw [and_functionMask]; simp [encode]; try rfl)⟩

theorem TableRow.ldBVx (x : RegIx) : TableRow.Statement (.ldBVx x) :=
  ⟨⟨"LD_B__Vx", 0xF0FF, 0xF033⟩, by decide, rfl, accepts_of_and (by rw [and_functionMask]; simp [encode]; try rfl)⟩

theorem TableRow.ldMemVx (x : RegIx) : TableRow.Statement (.ldMemVx x) :=
  ⟨⟨"LD__I___Vx", 0xF0FF, 0xF055⟩, by decide, rfl, accepts_of_and (by rw [and_functionMask]; simp [encode]; try rfl)⟩

theorem TableRow.ldVxMem (x : RegIx) : TableRow.Statement (.ldVxMem x) :=
  ⟨⟨"LD_Vx___I", 0xF0FF, 0xF065⟩, by decide, rfl, accepts_of_and (by rw [and_functionMask]; simp [encode]; try rfl)⟩

end Sys2Proof.Laws
end

