-- ==== Sys2Proof/Machine/Listing.lean ====
section
/-!
DEFINITION. How an instruction is written in a listing (30_encoding.md R140, the spec's decision D28). Notation only:
nothing of the machine depends on it.
-/

namespace Sys2Proof

/-- One hexadecimal digit. -/
def hexDigit (k : Nat) : String :=
  ["0", "1", "2", "3", "4", "5", "6", "7", "8", "9", "A", "B", "C", "D", "E", "F"].getD k "?"

/-- A register operand, `Vx`. -/
def regText (x : RegIx) : String := "V" ++ hexDigit x.val

/-- A hex byte, for kk. -/
def byteText (kk : Byte) : String := hexDigit (kk.toNat / 16) ++ hexDigit (kk.toNat % 16)

/-- A hex address, for nnn. -/
def addrText (nnn : Addr12) : String :=
  hexDigit (nnn.toNat / 256) ++ hexDigit (nnn.toNat / 16 % 16) ++ hexDigit (nnn.toNat % 16)

/-- Two operands. -/
def twoOperands (a b : String) : String := a ++ ", " ++ b

/-- The line of a listing for an instruction (R140). -/
def Instr.listing : Instr → String
  | .cls => "CLS"
  | .ret => "RET"
  | .jp nnn => "JP " ++ addrText nnn
  | .call nnn => "CALL " ++ addrText nnn
  | .seImm x kk => "SE " ++ twoOperands (regText x) (byteText kk)
  | .sneImm x kk => "SNE " ++ twoOperands (regText x) (byteText kk)
  | .seReg x y => "SE " ++ twoOperands (regText x) (regText y)
  | .ldImm x kk => "LD " ++ twoOperands (regText x) (byteText kk)
  | .addImm x kk => "ADD " ++ twoOperands (regText x) (byteText kk)
  | .ldReg x y => "LD " ++ twoOperands (regText x) (regText y)
  | .orReg x y => "OR " ++ twoOperands (regText x) (regText y)
  | .andReg x y => "AND " ++ twoOperands (regText x) (regText y)
  | .xorReg x y => "XOR " ++ twoOperands (regText x) (regText y)
  | .addReg x y => "ADD " ++ twoOperands (regText x) (regText y)
  | .sub x y => "SUB " ++ twoOperands (regText x) (regText y)
  | .shr x y => "SHR " ++ twoOperands (regText x) (regText y)
  | .subn x y => "SUBN " ++ twoOperands (regText x) (regText y)
  | .shl x y => "SHL " ++ twoOperands (regText x) (regText y)
  | .sneReg x y => "SNE " ++ twoOperands (regText x) (regText y)
  | .ldI nnn => "LD " ++ twoOperands "I" (addrText nnn)
  | .jpV0 nnn => "JP " ++ twoOperands "V0" (addrText nnn)
  | .rnd x kk => "RND " ++ twoOperands (regText x) (byteText kk)
  | .drw x y n => "DRW " ++ twoOperands (twoOperands (regText x) (regText y)) (hexDigit n.val)
  | .skp x => "SKP " ++ regText x
  | .sknp x => "SKNP " ++ regText x
  | .ldVxDt x => "LD " ++ twoOperands (regText x) "DT"
  | .ldVxK x => "LD " ++ twoOperands (regText x) "K"
  | .ldDtVx x => "LD " ++ twoOperands "DT" (regText x)
  | .ldStVx x => "LD " ++ twoOperands "ST" (regText x)
  | .addIVx x => "ADD " ++ twoOperands "I" (regText x)
  | .ldFVx x => "LD " ++ twoOperands "F" (regText x)
  | .ldBVx x => "LD " ++ twoOperands "B" (regText x)
  | .ldMemVx x => "LD " ++ twoOperands "[I]" (regText x)
  | .ldVxMem x => "LD " ++ twoOperands (regText x) "[I]"

/-- `SHR Vx` written without Vy: the assembler writes y = 0 (R140). -/
def Instr.shrAlone (x : RegIx) : Instr := .shr x 0

/-- `SHL Vx` written without Vy: the assembler writes y = 0 (R140). -/
def Instr.shlAlone (x : RegIx) : Instr := .shl x 0

end Sys2Proof
end

