-- ==== Sys2Proof/Tests/Slice0.lean ====
section
/-!
SUPPORT. Tests. Expected results come from the encodings of 30_encoding.md and from the vectors of 95_test_vectors.md
(sections S1 to S10 and 2.1 to 2.7), never from a run of this model. Then, for each obligation that has hypotheses, a
concrete state and operands that meet them.
-/

namespace Sys2Proof.Tests

open Sys2Proof.Machine

/-! ### Helpers -/

/-- Reset, with a word placed at pc = 0x200. -/
def at200 (w : Nat) : State := State.reset.withFetchWord 16 w

/-- Reset, with a word placed at another pc. -/
def atPc (pc : Word) (w : Nat) : State := ({ State.reset with pc := pc } : State).withFetchWord 16 w

/-- One step answers a Running next state in which `p` holds. -/
def runsTo (s : State) (p : State → Bool) : Bool :=
  match step s with
  | .next t => t.run == .running && p t
  | _ => false

/-- One step answers the state before, Faulted with this cause, pc and word (95_test_vectors.md, conventions). -/
def faultsWith (s : State) (cause : FaultCause) (pc : Word) (word : Option Word) : Bool :=
  match step s with
  | .next t => t == { s with run := .faulted ⟨cause, pc, word⟩ }
  | _ => false

/-- One pixel on. -/
def onePixel (r c : Nat) (hr : r < 32) (hc : c < 64) : Frame :=
  blankFrame.set r (blankFrame[r].set c true)

/-! ### WellFormed: an ill-formed term for the check that can refuse one -/

/-- A program of 3584 bytes fits, one of 3585 does not (70_reset_and_hazards.md R430). -/
theorem test_programFits :
    programFits (List.replicate 3584 0) = true ∧ programFits (List.replicate 3585 0) = false := by
  unfold programFits
  rw [List.length_replicate, List.length_replicate]
  decide

/-! ### Decoding: every constructor, from a word written out bit by bit (30_encoding.md R123, R127, R128) -/

theorem test_decode_control :
    decode 0b0000000011101110 = some .ret ∧ decode 0b0001101010111100 = some (.jp 0xABC) ∧
    decode 0b0010001100000000 = some (.call 0x300) ∧ decode 0b0011001100000111 = some (.seImm 3 0x07) ∧
    decode 0b0100001100000111 = some (.sneImm 3 0x07) ∧ decode 0b0101000100100000 = some (.seReg 1 2) ∧
    decode 0b1001000100100000 = some (.sneReg 1 2) ∧ decode 0b1011001100000000 = some (.jpV0 0x300) := by decide

theorem test_decode_alu :
    decode 0b0110101000000010 = some (.ldImm 10 0x02) ∧ decode 0b0111000000000001 = some (.addImm 0 0x01) ∧
    decode 0b1000000100100000 = some (.ldReg 1 2) ∧ decode 0b1000000100100001 = some (.orReg 1 2) ∧
    decode 0b1000000100100010 = some (.andReg 1 2) ∧ decode 0b1000000100100011 = some (.xorReg 1 2) ∧
    decode 0b1000000100100100 = some (.addReg 1 2) ∧ decode 0b1000000100100101 = some (.sub 1 2) := by decide

theorem test_decode_alu_shifts_and_random :
    decode 0b1000010010100110 = some (.shr 4 10) ∧ decode 0b1000000100100111 = some (.subn 1 2) ∧
    decode 0b1000000100101110 = some (.shl 1 2) ∧ decode 0b1100001100001111 = some (.rnd 3 0x0F) := by decide

theorem test_decode_index_memory :
    decode 0b1010001100000000 = some (.ldI 0x300) ∧ decode 0b1111001000011110 = some (.addIVx 2) ∧
    decode 0b1111101000101001 = some (.ldFVx 10) ∧ decode 0b1111010100110011 = some (.ldBVx 5) ∧
    decode 0b1111000101010101 = some (.ldMemVx 1) ∧ decode 0b1111001001100101 = some (.ldVxMem 2) := by decide

theorem test_decode_display :
    decode 0b0000000011100000 = some .cls ∧ decode 0b1101000000010101 = some (.drw 0 1 5) := by decide

theorem test_decode_keys_timers :
    decode 0b1110000110011110 = some (.skp 1) ∧ decode 0b1110000110100001 = some (.sknp 1) ∧
    decode 0b1111001100000111 = some (.ldVxDt 3) ∧ decode 0b1111001000001010 = some (.ldVxK 2) ∧
    decode 0b1111001100010101 = some (.ldDtVx 3) ∧ decode 0b1111001100011000 = some (.ldStVx 3) := by decide

/-- The samples of S10. -/
theorem test_decode_illegal :
    decode 0x0000 = none ∧ decode 0x0123 = none ∧ decode 0x5121 = none ∧ decode 0x912F = none ∧
    decode 0x8128 = none ∧ decode 0xE19F = none ∧ decode 0xF0FF = none := by decide

/-- Byte order: the byte at the lower address is the high byte; one byte alone is refused by name. -/
theorem test_decodeBytes :
    decodeBytes [0xD0, 0x15, 0x00] = .ok (.drw 0 1 5, [0x00]) ∧ encodeBytes (.drw 0 1 5) = [0xD0, 0x15] ∧
    decodeBytes [0xD0] = .error .truncated ∧ decodeBytes [0x00, 0x00] = .error (.unknownOpcode 0x0000) := by decide

theorem test_decodeTableWord :
    decodeTableWord 16 0xD015 = some (.drw 0 1 5) ∧ decodeTableWord 16 0x0000 = none := by decide

/-- Lines of the listings of P1 to P3 (95_test_vectors.md section 3). -/
theorem test_listing :
    (decode 0x70FF).map Instr.listing = some "ADD V0, FF" ∧ (decode 0x1204).map Instr.listing = some "JP 204" ∧
    (decode 0xDAB5).map Instr.listing = some "DRW VA, VB, 5" ∧
    (decode 0xF265).map Instr.listing = some "LD V2, [I]" := by decide

/-! ### Fetch (2.1) and faults -/

theorem test_fetch_last_word : runsTo (atPc 0xFFE 0x1200) (fun t => t.pc == 0x200) = true := by decide

theorem test_fetch_out_of_range :
    faultsWith { State.reset with pc := 0x1000 } .fetchOutOfRange 0x1000 none = true := by decide

theorem test_fetch_misaligned_first :
    faultsWith { State.reset with pc := 0x1001 } .pcMisaligned 0x1001 none = true := by decide

/-- No timer check after a fault (2.6). -/
theorem test_illegal_word :
    faultsWith { at200 0x0000 with dt := ⟨5, true⟩ } .unknownOpcode 0x200 (some 0x0000) = true := by decide

/-- A cycle request on a Faulted core is refused (2.7). -/
theorem test_faulted_core_refuses :
    step { at200 0x00E0 with run := .faulted ⟨.stackOverflow, 0x200, some 0x2200⟩ } =
      .refused (.coreFaulted ⟨.stackOverflow, 0x200, some 0x2200⟩) := by rfl

/-! ### Control transfer (2.2) -/

theorem test_ret :
    runsTo { atPc 0x300 0x00EE with sp := 1, stack := State.reset.stack.set 0 0x0204 }
      (fun t => t.pc == 0x206 && t.sp == 0) = true := by decide

theorem test_ret_underflow : faultsWith (atPc 0x300 0x00EE) .stackUnderflow 0x300 (some 0x00EE) = true := by decide

theorem test_jp : runsTo (at200 0x1ABC) (fun t => t.pc == 0xABC) = true := by decide

theorem test_call :
    runsTo { atPc 0x400 0x2300 with sp := 15 }
      (fun t => t.stack[15] == 0x400 && t.sp == 16 && t.pc == 0x300) = true := by decide

theorem test_call_overflow :
    faultsWith { atPc 0x400 0x2300 with sp := 16 } .stackOverflow 0x400 (some 0x2300) = true := by decide

theorem test_seImm : runsTo ((at200 0x3307).setV 3 0x07) (fun t => t.pc == 0x204) = true := by decide

theorem test_seImm_not_taken : runsTo ((at200 0x3307).setV 3 0x08) (fun t => t.pc == 0x202) = true := by decide

theorem test_sneImm : runsTo ((at200 0x4307).setV 3 0x08) (fun t => t.pc == 0x204) = true := by decide

theorem test_sneImm_not_taken : runsTo ((at200 0x4307).setV 3 0x07) (fun t => t.pc == 0x202) = true := by decide

theorem test_seReg :
    runsTo (((at200 0x5120).setV 1 0x10).setV 2 0x11) (fun t => t.pc == 0x202) = true := by decide

theorem test_sneReg :
    runsTo (((at200 0x9120).setV 1 0x10).setV 2 0x11) (fun t => t.pc == 0x204) = true := by decide

theorem test_jpV0 : runsTo ((at200 0xBFFF).setV 0 0xFF) (fun t => t.pc == 0x10FE) = true := by decide

/-! ### Register and ALU (2.3) -/

theorem test_ldImm : runsTo (at200 0x6A02) (fun t => t.getV 10 == 0x02 && t.pc == 0x202) = true := by decide

theorem test_addImm_no_flag :
    runsTo ((at200 0x7001).setV 0 0xFF) (fun t => t.getV 0 == 0 && t.getV 15 == 0) = true := by decide

theorem test_addImm_vf : runsTo ((at200 0x7F01).setV 15 0xFF) (fun t => t.getV 15 == 0) = true := by decide

theorem test_ldReg : runsTo ((at200 0x8120).setV 2 0x5A) (fun t => t.getV 1 == 0x5A) = true := by decide

theorem test_orReg :
    runsTo ((((at200 0x8121).setV 1 0x0F).setV 2 0xF0).setV 15 0x55)
      (fun t => t.getV 1 == 0xFF && t.getV 15 == 0x55) = true := by decide

theorem test_andReg :
    runsTo ((((at200 0x8122).setV 1 0x3C).setV 2 0x0F).setV 15 0x55)
      (fun t => t.getV 1 == 0x0C && t.getV 15 == 0x55) = true := by decide

theorem test_xorReg :
    runsTo (((at200 0x8123).setV 1 0x3C).setV 2 0x0F) (fun t => t.getV 1 == 0x33) = true := by decide

theorem test_addReg_vf_source :
    runsTo (((at200 0x80F4).setV 0 0x10).setV 15 0xF0) (fun t => t.getV 0 == 0 && t.getV 15 == 1) = true := by decide

theorem test_addReg_vf_destination :
    runsTo (((at200 0x8F14).setV 15 0xFF).setV 1 0x02) (fun t => t.getV 15 == 1) = true := by decide

theorem test_sub_equal :
    runsTo (((at200 0x8015).setV 0 0x07).setV 1 0x07) (fun t => t.getV 0 == 0 && t.getV 15 == 1) = true := by decide

theorem test_sub_borrow :
    runsTo (((at200 0x8015).setV 0 0x05).setV 1 0x07) (fun t => t.getV 0 == 0xFE && t.getV 15 == 0) = true := by
  decide

theorem test_shr :
    runsTo (((at200 0x84A6).setV 4 0x05).setV 10 0x77)
      (fun t => t.getV 4 == 0x02 && t.getV 15 == 1 && t.getV 10 == 0x77) = true := by decide

theorem test_subn :
    runsTo (((at200 0x8017).setV 0 0x05).setV 1 0x07) (fun t => t.getV 0 == 0x02 && t.getV 15 == 1) = true := by decide

theorem test_shl : runsTo ((at200 0x840E).setV 4 0x81) (fun t => t.getV 4 == 0x02 && t.getV 15 == 1) = true := by decide

/-- C300: whatever the draw, the mask leaves 0; the draw is taken. -/
theorem test_rnd : ∃ t, exec (.rnd 3 0x00) State.reset = .next t ∧ t.getV 3 = 0 ∧ t.draws = 1 ∧ t.pc = 0x202 :=
  ⟨_, rfl, BitVec.and_zero, rfl, rfl⟩

/-! ### Index register and memory (2.4) -/

theorem test_ldI : runsTo (at200 0xA300) (fun t => t.i == 0x300) = true := by decide

theorem test_addIVx :
    runsTo { (at200 0xF21E).setV 2 0x05 with i := 0x0FFE } (fun t => t.i == 0x1003) = true := by decide

theorem test_addIVx_overflow :
    faultsWith { (at200 0xF21E).setV 2 0x01 with i := 0xFFFF } .indexOverflow 0x200 (some 0xF21E) = true := by decide

theorem test_ldFVx_not_masked : runsTo ((at200 0xFA29).setV 10 0xFF) (fun t => t.i == 0x04FB) = true := by decide

theorem test_ldBVx :
    runsTo { (at200 0xF533).setV 5 234 with i := 0x300 }
      (fun t => t.loadBytes 0x300 3 == [2, 3, 4] && t.i == 0x300) = true := by decide

theorem test_ldBVx_out_of_range :
    faultsWith { (at200 0xF533).setV 5 7 with i := 0xFFE } .addressOutOfRange 0x200 (some 0xF533) = true := by decide

theorem test_ldMemVx :
    runsTo { ((at200 0xF155).setV 0 0x11).setV 1 0x22 with i := 0x400 }
      (fun t => t.loadBytes 0x400 2 == [0x11, 0x22] && t.i == 0x400) = true := by decide

theorem test_ldMemVx_out_of_range :
    faultsWith { at200 0xF155 with i := 0xFFF } .addressOutOfRange 0x200 (some 0xF155) = true := by decide

/-- FF65 at I = 0 loads glyphs 0, 1, 2 and the first byte of glyph 3, VF included. -/
theorem test_ldVxMem_font :
    runsTo (at200 0xFF65)
      (fun t => t.v.toList == [0xF0, 0x90, 0x90, 0x90, 0xF0, 0x20, 0x60, 0x20, 0x20, 0x70, 0xF0, 0x10, 0xF0, 0x80,
        0xF0, 0xF0]) = true := by decide

/-- FONT is an argument: under another FONT, whose glyph 2 begins with 0x3C, S8's load of mem[0x00A] gives FONT[10]. -/
theorem test_font_is_an_argument :
    runsTo { at200 0xF065 with i := 0x00A, font := Config.defaultFont.set 10 0x3C } (fun t => t.getV 0 == 0x3C) = true ∧
    runsTo { at200 0xF065 with i := 0x00A } (fun t => t.getV 0 == 0xF0) = true := by decide

theorem test_ldVxMem_out_of_range :
    faultsWith { (at200 0xF165).setV 0 0x09 with i := 0xFFF } .addressOutOfRange 0x200 (some 0xF165) = true := by
  decide

/-! ### Framebuffer (2.5) -/

theorem test_cls :
    runsTo { at200 0x00E0 with fb := onePixel 31 63 (by decide) (by decide) }
      (fun t => !t.fb[31][63] && !t.fb[0][0] && t.redraw) = true := by decide

/-- Clipping at the right edge, and the collision of a visible pixel only. -/
theorem test_drw_clipped :
    runsTo { (at200 0xD011).setV 0 63 with fb := onePixel 0 63 (by decide) (by decide) }
      (fun t => !t.fb[0][63] && !t.fb[0][0] && !t.fb[1][0] && t.getV 15 == 1 && t.redraw) = true := by decide

/-- The origin wraps: column 67 mod 64, row 34 mod 32. -/
theorem test_drw_origin :
    runsTo (((at200 0xD011).setV 0 67).setV 1 34)
      (fun t => t.fb[2].toList.take 8 == [false, false, false, true, true, true, true, false] &&
        t.getV 15 == 0) = true := by decide

/-! ### Keys and timers (2.6) -/

theorem test_skp :
    runsTo { (atPc 0x300 0xE19E).setV 1 0x0A with keys := noKeys.set 10 true } (fun t => t.pc == 0x304) = true := by
  decide

theorem test_skp_out_of_range :
    faultsWith ((atPc 0x300 0xE19E).setV 1 0x10) .keyIndexOutOfRange 0x300 (some 0xE19E) = true := by decide

theorem test_sknp : runsTo ((atPc 0x300 0xE1A1).setV 1 0x0A) (fun t => t.pc == 0x304) = true := by decide

theorem test_sknp_pressed :
    runsTo { (atPc 0x300 0xE1A1).setV 1 0x0A with keys := noKeys.set 10 true } (fun t => t.pc == 0x302) = true := by
  decide

theorem test_ldVxDt_before_check :
    runsTo { at200 0xF307 with dt := ⟨0x3C, true⟩ } (fun t => t.getV 3 == 0x3C && t.dt == ⟨0x3B, false⟩) = true := by
  decide

theorem test_ldVxK :
    runsTo { at200 0xF20A with keys := (noKeys.set 3 true).set 9 true }
      (fun t => t.getV 2 == 0x09 && t.pc == 0x202) = true := by decide

theorem test_ldVxK_waits :
    runsTo { at200 0xF20A with dt := ⟨5, true⟩ } (fun t => t.pc == 0x200 && t.dt == ⟨4, false⟩) = true := by decide

theorem test_ldDtVx :
    runsTo { (at200 0xF315).setV 3 0x3C with dt := ⟨9, true⟩ } (fun t => t.dt == ⟨0x3C, false⟩) = true := by decide

theorem test_ldStVx :
    runsTo { (at200 0xF318).setV 3 0x02 with st := ⟨0, true⟩ } (fun t => t.st == ⟨0x02, false⟩) = true := by decide

/-- A stopped timer keeps its due bit; the other one goes down. -/
theorem test_timer_check :
    runsTo { at200 0x6000 with dt := ⟨0, true⟩, st := ⟨2, true⟩ }
      (fun t => t.dt == ⟨0, true⟩ && t.st == ⟨1, false⟩) = true := by decide

/-! ### Host operations (2.7) -/

theorem test_keyWrite :
    runsTo { State.reset with schedule := [.keyWrite 5 true] }
      (fun t => t == { State.reset with keys := noKeys.set 5 true }) = true := by decide

theorem test_consumeFrame :
    runsTo { State.reset with redraw := true, schedule := [.consumeFrame] } (fun t => t == State.reset) = true := by
  decide

/-- A launch puts the program at 0x200 (70_reset_and_hazards.md R430). -/
theorem test_launch :
    runsTo { State.reset with pc := 0x300, schedule := [.launch (some [0x00, 0xE0, 0x12, 0x00])] }
      (fun t => t.pc == 0x200 && t.loadBytes 0x200 4 == [0x00, 0xE0, 0x12, 0x00]) = true := by decide

/-! ### Witnesses: for each obligation with hypotheses, operands and a state that meet them, clause by clause -/

/-- 00E0 at 0xFFE, the last word: the boundary of the fetch. -/
def lastWord : State := atPc 0xFFE 0x00E0

/-- Sixteen calls deep, with a call at 0x200. -/
def fullStack : State := { at200 0x2300 with sp := 16 }

/-- A Faulted core, whose host then writes a key. -/
def stopped : State :=
  { fullStack with run := .faulted ⟨.stackOverflow, 0x200, some 0x2300⟩, schedule := [.keyWrite 15 true] }

theorem witness_OneTableRowPerLegalWord : decode 0xF065 = some (.ldVxMem 0) ∧ decode 0xF066 = none := by decide

theorem witness_StepRunsDecodedInstruction :
    lastWord.schedule = [] ∧ ({ lastWord with schedule := [.cycle] } : State).schedule = .cycle :: [] ∧
    lastWord.nextAction = (.cycle, lastWord) ∧ lastWord.run = .running ∧
    (lastWord.pc.toNat % 2 = 0 ∧ lastWord.pc.toNat ≤ 0xFFE) ∧
    decodeBytes [lastWord.byte lastWord.pc.toNat, lastWord.byte (lastWord.pc.toNat + 1)] =
      .ok (.cls, []) ∧
    Instr.cls.wellFormed = true ∧
    exec .cls lastWord = .next { lastWord.advance with fb := blankFrame, redraw := true } :=
  ⟨rfl, rfl, rfl, rfl, by decide, by decide, rfl, rfl⟩

theorem witness_FetchIsBigEndian : PcFetchable lastWord := by unfold PcFetchable; decide

/-- Odd at both ends of the range, even just above it, an illegal word, and a call with a full stack. -/
theorem witness_FaultChecksInOrder :
    fullStack.nextAction = (.cycle, fullStack) ∧ fullStack.run = .running ∧
    ({ fullStack with pc := 0x0001 } : State).pc.toNat % 2 = 1 ∧
    ({ fullStack with pc := 0x1001 } : State).pc.toNat % 2 = 1 ∧
    (({ fullStack with pc := 0x1000 } : State).pc.toNat % 2 = 0 ∧
      0xFFE < ({ fullStack with pc := 0x1000 } : State).pc.toNat) ∧
    ((at200 0x0000).pc.toNat % 2 = 0 ∧ (at200 0x0000).pc.toNat ≤ 0xFFE ∧ decode (at200 0x0000).wordAtPc = none) ∧
    (fullStack.pc.toNat % 2 = 0 ∧ fullStack.pc.toNat ≤ 0xFFE ∧ decode fullStack.wordAtPc = some (.call 0x300)) ∧
    ¬ (Instr.call 0x300).okIn fullStack :=
  ⟨rfl, rfl, by decide, by decide, by decide, by decide, by decide, by simp [Instr.okIn, fullStack]⟩

theorem witness_ExecFaultsPreciselyWhenItsCheckFails :
    fullStack.run = .running ∧ ¬ (Instr.call 0x300).okIn fullStack ∧ Instr.ret.okIn fullStack :=
  ⟨rfl, by simp [Instr.okIn, fullStack], by simp [Instr.okIn, fullStack]⟩

/-- The safe side, and an unsafe cycle: the seventeenth call. -/
theorem witness_CycleIsSafeExactlyUnderTheProgramInvariants :
    lastWord.nextAction = (.cycle, lastWord) ∧ lastWord.run = .running ∧
    (lastWord.pc.toNat % 2 = 0 ∧ lastWord.pc.toNat ≤ 0xFFE) ∧ decode lastWord.wordAtPc = some .cls ∧
    Instr.cls.okIn lastWord ∧
    fullStack.nextAction = (.cycle, fullStack) ∧ fullStack.run = .running ∧
    decode fullStack.wordAtPc = some (.call 0x300) ∧ ¬ (Instr.call 0x300).okIn fullStack ∧
    step fullStack = .next (fullStack.faultedWith .stackOverflow (some 0x2300)) :=
  ⟨rfl, rfl, by decide, by decide, trivial, rfl, rfl, by decide, by simp [Instr.okIn, fullStack], rfl⟩

theorem witness_FaultedCoreTakesNoCycle :
    ({ stopped with schedule := [] } : State).nextAction = (.cycle, { stopped with schedule := [] }) ∧
    ({ stopped with schedule := [] } : State).run = .faulted ⟨.stackOverflow, 0x200, some 0x2300⟩ := ⟨rfl, rfl⟩

theorem witness_FaultedCoreIsFrozen :
    stopped.run = .faulted ⟨.stackOverflow, 0x200, some 0x2300⟩ ∧ (∀ p, stopped.nextAction.1 ≠ .launch p) ∧
    step stopped = .next { stopped with keys := stopped.keys.set 15 true, schedule := [] } ∧ stopped.redraw = false :=
  ⟨rfl, (fun _ h => nomatch h), rfl, rfl⟩

/-- A state at the top of pc's range, with one live stack entry at the top of its range. -/
def edge : State := { State.reset with pc := 0x10FE, sp := 1, stack := State.reset.stack.set 0 0x0FFE }

theorem edge_inv : edge.Inv where
  memory := Memory.wf_nil _
  pc := by decide
  stack := by
    intro k h hk
    have hk0 : k = 0 := by
      have : edge.sp.val = 1 := rfl
      omega
    subst hk0
    exact (by decide : (0x0FFE#16).toNat % 2 = 0 ∧ (0x0FFE#16).toNat ≤ 0xFFE)
  record := fun r h => nomatch h

theorem witness_StepKeepsTheInvariant :
    edge.Inv ∧ step edge = .next (edge.faultedWith .fetchOutOfRange none) := ⟨edge_inv, rfl⟩

theorem witness_JumpGoesToTheLiteral : (0xFFF : Addr12).toNat % 2 = 1 := by decide

theorem witness_CallPushesItsOwnAddress :
    ({ State.reset with sp := 15 } : State).sp.val < 16 ∧ State.reset.sp.val < 16 ∧ fullStack.sp.val = 16 := by decide

theorem witness_ReturnResumesAfterThePoppedEntry :
    0 < edge.sp.val ∧ edge.Inv ∧ 0 < fullStack.sp.val ∧ State.reset.sp.val = 0 :=
  ⟨by decide, edge_inv, by decide, rfl⟩

theorem witness_ReturnLandsAfterTheCall :
    State.reset.sp.val < 16 ∧
    ∃ t, exec (.call 0x300) State.reset = .next t ∧
      ({ State.reset with pc := 0x300, stack := t.stack, sp := t.sp } : State).stack = t.stack ∧
      ({ State.reset with pc := 0x300, stack := t.stack, sp := t.sp } : State).sp = t.sp :=
  ⟨by decide, _, rfl, rfl, rfl⟩

/-- nnn + V0 at 0xFFF (odd), at 0x1000 and at 0x10FE (even, above 0xFFE). -/
theorem witness_IndexedJumpAddsV0Exactly :
    (indexedTarget 0xFFF 0x00).toNat % 2 = 1 ∧
    ((indexedTarget 0xFFF 0x01).toNat % 2 = 0 ∧ 0xFFE < (indexedTarget 0xFFF 0x01).toNat) ∧
    ((indexedTarget 0xFFF 0xFF).toNat % 2 = 0 ∧ (indexedTarget 0xFFF 0xFF).toNat = 0x10FE) := by decide

/-- The clause of the flag instructions on a destination other than VF. -/
theorem witness_FlagInstructionsNotVF : (14 : RegIx) ≠ 15 ∧ (0 : RegIx) ≠ 15 := by decide

/-- I + Vx at 0xFFFF and at 0x10000. -/
theorem witness_IndexAddIsExactOrFaults :
    (({ State.reset with i := 0xFF00 } : State).setV 2 0xFF).i.toNat +
      ((({ State.reset with i := 0xFF00 } : State).setV 2 0xFF).getV 2).toNat ≤ 0xFFFF ∧
    0xFFFF < (({ State.reset with i := 0xFFFF } : State).setV 2 0x01).i.toNat +
      ((({ State.reset with i := 0xFFFF } : State).setV 2 0x01).getV 2).toNat := by decide

theorem witness_DecimalDigitsAreStored :
    Memory.wf State.reset.font State.reset.mem ∧ ({ State.reset with i := 0xFFD } : State).i.toNat + 2 ≤ 0xFFF ∧
    0xFFF < ({ State.reset with i := 0xFFE } : State).i.toNat + 2 := ⟨Memory.wf_nil _, by decide, by decide⟩

/-- The widest block that fits, the narrowest at the last address, and each one address too high. -/
theorem witness_RegisterBlockIsStored :
    Memory.wf State.reset.font State.reset.mem ∧ ({ State.reset with i := 0xFF0 } : State).i.toNat + (15 : RegIx).val ≤ 0xFFF ∧
    ({ State.reset with i := 0xFFF } : State).i.toNat + (0 : RegIx).val ≤ 0xFFF ∧
    0xFFF < ({ State.reset with i := 0xFF1 } : State).i.toNat + (15 : RegIx).val ∧
    0xFFF < ({ State.reset with i := 0x1000 } : State).i.toNat + (0 : RegIx).val :=
  ⟨Memory.wf_nil _, by decide, by decide, by decide, by decide⟩

theorem witness_RegisterBlockIsLoaded :
    ({ State.reset with i := 0xFF0 } : State).i.toNat + (15 : RegIx).val ≤ 0xFFF ∧
    0xFFF < ({ State.reset with i := 0xFF1 } : State).i.toNat + (15 : RegIx).val := by decide

theorem witness_StoreThenLoadRestoresTheRegisters :
    Memory.wf State.reset.font State.reset.mem ∧ ({ State.reset with i := 0xFF0 } : State).i.toNat + (15 : RegIx).val ≤ 0xFFF ∧
    ∃ t, exec (.ldMemVx 15) { State.reset with i := 0xFF0 } = .next t ∧
      ({ State.reset with mem := t.mem, i := t.i } : State).font = t.font ∧
      ({ State.reset with mem := t.mem, i := t.i } : State).mem = t.mem ∧
      ({ State.reset with mem := t.mem, i := t.i } : State).i = t.i :=
  ⟨Memory.wf_nil _, by decide, _, rfl, rfl, rfl, rfl⟩

/-- The word stored at 0xFFE and 0xFFF, the last that can be fetched. -/
theorem witness_StoredCodeIsFetched :
    Memory.wf State.reset.font State.reset.mem ∧ (0 : RegIx) < 1 ∧ ({ State.reset with i := 0xFFE } : State).i.toNat + (1 : RegIx).val ≤
      0xFFF ∧
    ∃ t, exec (.ldMemVx 1) { State.reset with i := 0xFFE } = .next t ∧
      ({ t with pc := 0xFFE } : State).font = t.font ∧ ({ t with pc := 0xFFE } : State).mem = t.mem ∧
      ({ t with pc := 0xFFE } : State).pc.toNat = ({ State.reset with i := 0xFFE } : State).i.toNat + (0 : RegIx).val ∧
      ({ t with pc := 0xFFE } : State).pc.toNat % 2 = 0 :=
  ⟨Memory.wf_nil _, by decide, by decide, _, rfl, rfl, rfl, rfl, rfl⟩

/-- No row at I = 0xFFFF, one row at 0xFFF, and two rows at 0xFFF, which do not fit (2.5). -/
theorem witness_DrawTogglesTheSpritePixels :
    InsideMemory ({ State.reset with i := 0xFFFF } : State).i.toNat (0 : Height).val ∧
    InsideMemory ({ State.reset with i := 0xFFF } : State).i.toNat (1 : Height).val ∧
    ¬ InsideMemory ({ State.reset with i := 0xFFF } : State).i.toNat (2 : Height).val := by
  unfold InsideMemory
  decide

theorem witness_DrawingTwiceRestoresTheFrame :
    InsideMemory State.reset.i.toNat (5 : Height).val ∧
    ∃ t, exec (.drw 0 1 5) State.reset = .next t ∧
      InsideMemory ({ State.reset with fb := t.fb } : State).i.toNat (5 : Height).val ∧
      ({ State.reset with fb := t.fb } : State).fb = t.fb ∧
      ∀ r c, ({ State.reset with fb := t.fb } : State).spriteAt 0 1 5 r c = State.reset.spriteAt 0 1 5 r c :=
  ⟨by unfold InsideMemory; decide, _, rfl, by unfold InsideMemory; decide, rfl, fun _ _ => rfl⟩

theorem witness_DrawAfterClearShowsTheSprite : InsideMemory State.reset.i.toNat (15 : Height).val := by
  unfold InsideMemory
  decide

/-- Vx = 15, the last key, and 16. -/
theorem witness_KeySkipsReadTheMatrix :
    ((State.reset.setV 1 0x0F).getV 1).toNat < 16 ∧ 15 < ((State.reset.setV 1 0x10).getV 1).toNat := by decide

/-- Keys 3 and 9 pressed: 9 is the highest; and no key pressed. -/
theorem witness_KeyWaitTakesTheHighestKey :
    ((noKeys.set 3 true).set 9 true)[(9 : Fin 16).val] = true ∧
    (∀ j : Fin 16, ((noKeys.set 3 true).set 9 true)[j.val] = true → j ≤ 9) ∧
    (∀ k : Fin 16, State.reset.keys[k.val] = false) := by decide

/-- Due and nonzero at 1 and 255; due and zero; nonzero and not due. -/
theorem witness_TimerCheckDecrementsDueTimers :
    ((⟨1, true⟩ : Timer).value ≠ 0 ∧ (⟨1, true⟩ : Timer).due = true) ∧
    ((⟨0xFF, true⟩ : Timer).value ≠ 0 ∧ (⟨0xFF, true⟩ : Timer).due = true) ∧
    ¬ ((⟨0, true⟩ : Timer).value ≠ 0 ∧ (⟨0, true⟩ : Timer).due = true) ∧
    ¬ ((⟨1, false⟩ : Timer).value ≠ 0 ∧ (⟨1, false⟩ : Timer).due = true) := by decide

theorem witness_TimersFallByAtMostOnePerStep :
    (∀ p, ({ lastWord with dt := ⟨1, true⟩ } : State).nextAction.1 ≠ .launch p) ∧
    ∃ t, step { lastWord with dt := ⟨1, true⟩ } = .next t ∧ t.dt = ⟨0, false⟩ :=
  ⟨(fun _ h => nomatch h), _, rfl, rfl⟩

theorem witness_UntimedTimerRefinesTimed :
    0 < 1 ∧ (⟨0, 1⟩ : TimedTimer).isDue 1 = true ∧ 0 < Config.timerPeriod ∧ 0 < Config.referenceTimerPeriod := by decide

/-- CLS changes the display and nothing the other whole-machine statements speak of; LD Vx, kk touches none of it. -/
theorem witness_WholeMachineStatements :
    (∃ t, exec .cls State.reset = .next t) ∧ (∃ t, exec (.ldImm 0 1) State.reset = .next t) ∧
    Instr.ldImm 0 1 ≠ .cls ∧ (∀ x y n, Instr.ldImm 0 1 ≠ .drw x y n) ∧ Instr.ldImm 0 1 ≠ .ret ∧
    (∀ nnn, Instr.ldImm 0 1 ≠ .call nnn) ∧ (∀ x, Instr.ldImm 0 1 ≠ .ldBVx x) ∧
    (∀ x, Instr.ldImm 0 1 ≠ .ldMemVx x) ∧ (∀ nnn, Instr.ldImm 0 1 ≠ .ldI nnn) ∧
    (∀ x, Instr.ldImm 0 1 ≠ .addIVx x) ∧ (∀ x, Instr.ldImm 0 1 ≠ .ldFVx x) ∧
    (∀ x, Instr.ldImm 0 1 ≠ .ldDtVx x) ∧ (∀ x, Instr.ldImm 0 1 ≠ .ldStVx x) :=
  ⟨⟨_, rfl⟩, ⟨_, rfl⟩, nofun, nofun, nofun, nofun, nofun, nofun, nofun, nofun, nofun, nofun, nofun⟩

/-- The same for a redraw flag that is set, and for the register frame. -/
theorem witness_RedrawAlreadySet :
    ∃ t, exec (.ldImm 0 1) { State.reset with redraw := true } = .next t ∧
      ({ State.reset with redraw := true } : State).redraw = true := ⟨_, rfl, rfl⟩

theorem witness_NoStepChangesTheFont :
    step { lastWord with font := Vector.replicate 80 0 } =
      .next { lastWord.advance with fb := blankFrame, redraw := true, font := Vector.replicate 80 0 } := rfl

theorem witness_HostStatements :
    stopped.schedule = .keyWrite 15 true :: [] ∧
    ({ State.reset with schedule := [.consumeFrame] } : State).schedule = .consumeFrame :: [] ∧
    (({ State.reset with schedule := [.timePasses true false] } : State).schedule = .timePasses true false :: [] ∧
      State.reset.run = .running) ∧
    ({ State.reset with schedule := [.launch none] } : State).schedule = .launch none :: [] := ⟨rfl, rfl, ⟨rfl, rfl⟩, rfl⟩

/-- The empty program, the longest one, and one byte more. -/
theorem witness_LaunchResetsAndLoads :
    ((some ([] : List Byte)).getD Config.defaultProgram).length ≤ 3584 ∧
    ((some (List.replicate 3584 (0 : Byte))).getD Config.defaultProgram).length ≤ 3584 ∧
    3584 < ((some (List.replicate 3585 (0 : Byte))).getD Config.defaultProgram).length := by
  simp only [Option.getD_some, List.length_replicate]
  decide

theorem witness_HostMovesLeaveTheProgramStateAlone :
    stopped.nextAction.1 ≠ .cycle ∧ (∀ p, stopped.nextAction.1 ≠ .launch p) ∧
    step stopped = .next { stopped with keys := stopped.keys.set 15 true, schedule := [] } :=
  ⟨nofun, (fun _ h => nomatch h), rfl⟩

end Sys2Proof.Tests
end

section
/-!
The call and return instructions where they do not fault, and the round trip of one call and its return
(10_state.md R42).
-/

namespace Sys2Proof.Machine

theorem exec_call_of_lt (nnn : Addr12) (s : State) (h : s.sp.val < 16) :
    exec (.call nnn) s = .next { s with
      stack := s.stack.set s.sp.val s.pc, sp := ⟨s.sp.val + 1, by omega⟩, pc := zextAddr nnn } :=
  (execCall_eq nnn s).trans (dif_pos h)

theorem exec_ret_of_pos (s : State) (h : 0 < s.sp.val) :
    exec .ret s = .next { s with sp := ⟨s.sp.val - 1, by omega⟩, pc := s.stack[s.sp.val - 1] + 2 } :=
  (execRet_eq s).trans (dif_pos h)

/-- A return looks only at the call stack, so `u` may differ from the caller's state in everything else. -/
theorem exec_ret_after_push (s u : State) (r : Word) (h : s.sp.val < 16)
    (hstack : u.stack = s.stack.set s.sp.val r) (hsp : u.sp.val = s.sp.val + 1) :
    ∃ w, exec .ret u = .next w ∧ w.pc = r + 2 ∧ w.sp = s.sp := by
  refine ⟨_, exec_ret_of_pos u (by omega), ?_, ?_⟩
  · have htop : u.stack[u.sp.val - 1] = r := by simp [hstack, hsp]
    simp only [htop]
  · exact Fin.ext (by simp [hsp])

/-- Settles O19: a call pushes its own address, and the return pops that entry. -/
theorem returnLandsAfterTheCall : Obligations.ReturnLandsAfterTheCall := by
  intro nnn s u h
  refine ⟨_, exec_call_of_lt nnn s h, fun hstack hsp => ?_⟩
  exact exec_ret_after_push s u s.pc h hstack (congrArg Fin.val hsp)

end Sys2Proof.Machine
end

section
/-!
The four skip instructions that compare (40_control_flow.md R164 to R168): two select on an equality and two on its
failure, and each is `State.skip` of that condition.
-/

namespace Sys2Proof

theorem decode_wordXKK_three (x : RegIx) (kk : Byte) : decode (wordXKK 0x3 x kk) = some (.seImm x kk) := by
  simp [decode]

theorem decode_wordXKK_four (x : RegIx) (kk : Byte) : decode (wordXKK 0x4 x kk) = some (.sneImm x kk) := by
  simp [decode]

theorem decode_wordXYN_five (x y : RegIx) : decode (wordXYN 0x5 x y 0) = some (.seReg x y) := by
  simp [decode]

theorem decode_wordXYN_nine (x y : RegIx) : decode (wordXYN 0x9 x y 0) = some (.sneReg x y) := by
  simp [decode]

end Sys2Proof

namespace Sys2Proof.Machine

theorem onlyPc_setPc (s : State) (w : Word) : OnlyPc s { s with pc := w } :=
  ⟨fun _ _ => rfl, rfl, ⟨rfl, rfl⟩, ⟨rfl, rfl⟩, rfl, ⟨rfl, rfl⟩, ⟨rfl, fun _ => rfl⟩, rfl, rfl, rfl⟩

theorem onlyPc_skip (s : State) (c : Bool) : OnlyPc s (s.skip c) :=
  s.skip_eq c ▸ onlyPc_setPc s _

/-- What every SE does, whichever two bytes it compares. -/
theorem exec_skip_of_beq {i : Instr} {s : State} {a b : Byte} (h : exec i s = .next (s.skip (a == b))) :
    ∃ t, exec i s = .next t ∧ t.pc = (if a = b then s.pc + 4 else s.pc + 2) ∧ OnlyPc s t :=
  ⟨_, h, by simp only [State.skip_pc, beq_iff_eq], onlyPc_skip s _⟩

/-- What every SNE does: the advances of SE exchanged. -/
theorem exec_skip_of_bne {i : Instr} {s : State} {a b : Byte} (h : exec i s = .next (s.skip (a != b))) :
    ∃ t, exec i s = .next t ∧ t.pc = (if a = b then s.pc + 2 else s.pc + 4) ∧ OnlyPc s t :=
  ⟨_, h, by simp only [State.skip_pc, bne_iff_ne, ne_eq, ite_not], onlyPc_skip s _⟩

/-- Settles O20: both immediate skips skip on the comparison of V[x] with kk. -/
theorem immediateSkipsAdvanceByTwoOrFour : Obligations.ImmediateSkipsAdvanceByTwoOrFour := by
  intro x kk s
  exact ⟨decode_wordXKK_three x kk, decode_wordXKK_four x kk, exec_skip_of_beq rfl, exec_skip_of_bne rfl⟩

/-- Settles O21: both register skips skip on the comparison of V[x] with V[y]. -/
theorem registerSkipsAdvanceByTwoOrFour : Obligations.RegisterSkipsAdvanceByTwoOrFour := by
  intro x y s
  exact ⟨decode_wordXYN_five x y, decode_wordXYN_nine x y, exec_skip_of_beq rfl, exec_skip_of_bne rfl⟩

end Sys2Proof.Machine
end

section
/-!
The ALU instructions that write one register and no flag (41_alu.md R200): each answers `State.writeResult` of its
result, so the result, the frame and the advance are said once, of that operation.
-/

namespace Sys2Proof

theorem decode_wordXKK_six (x : RegIx) (kk : Byte) : decode (wordXKK 0x6 x kk) = some (.ldImm x kk) := by
  simp [decode]

theorem decode_wordXKK_seven (x : RegIx) (kk : Byte) : decode (wordXKK 0x7 x kk) = some (.addImm x kk) := by
  simp [decode]

theorem decode_wordXYN_eight_zero (x y : RegIx) : decode (wordXYN 0x8 x y 0) = some (.ldReg x y) := by
  simp [decode, decodeAlu]

end Sys2Proof

namespace Sys2Proof.Machine

theorem State.getV_writeResult_self (s : State) (x : RegIx) (b : Byte) : (s.writeResult x b).getV x = b :=
  s.getV_setV_self x b

theorem keepsRegs_writeResult (s : State) (x : RegIx) (b : Byte) : KeepsRegs (· = x) s (s.writeResult x b) :=
  fun _ hr => s.getV_setV_ne b (Ne.symm hr)

theorem onlyRegsAndPc_writeResult (s : State) (x : RegIx) (b : Byte) : OnlyRegsAndPc s (s.writeResult x b) :=
  ⟨rfl, ⟨rfl, rfl⟩, ⟨rfl, rfl⟩, rfl, ⟨rfl, rfl⟩, ⟨rfl, fun _ => rfl⟩, rfl, rfl, rfl⟩

/-- Everything but the result itself, in the form the ALU obligations ask for it. -/
theorem writeResult_frame (s : State) (x : RegIx) (b : Byte) :
    KeepsRegs (· = x) s (s.writeResult x b) ∧ (s.writeResult x b).pc = s.pc + 2 ∧
      OnlyRegsAndPc s (s.writeResult x b) :=
  ⟨keepsRegs_writeResult s x b, rfl, onlyRegsAndPc_writeResult s x b⟩

/-- Settles O23: all three answer `State.writeResult`, of kk, of the sum in the byte type, and of V[y]. -/
theorem loadsAndAddImmediate : Obligations.LoadsAndAddImmediate := by
  intro x y kk s
  refine ⟨decode_wordXKK_six x kk, decode_wordXKK_seven x kk, decode_wordXYN_eight_zero x y, ?_, ?_, ?_⟩
  · exact ⟨_, rfl, s.getV_writeResult_self x kk, writeResult_frame s x kk⟩
  · have hsum : ((s.writeResult x (s.getV x + kk)).getV x).toNat = ((s.getV x).toNat + kk.toNat) % 256 := by
      rw [State.getV_writeResult_self, BitVec.toNat_add]
    exact ⟨_, rfl, hsum, writeResult_frame s x _⟩
  · exact ⟨_, rfl, s.getV_writeResult_self x _, writeResult_frame s x _⟩

end Sys2Proof.Machine
end

section
/-!
The two instructions that load the index register with a value of their own (42_index_memory.md R250, R253): each
answers the advanced state with one new `i`, so the frame is said once, of that update, for every word; what is left
is the number each of the two words stands for.
-/

namespace Sys2Proof

theorem decode_wordNNN_ten (nnn : Addr12) : decode (wordNNN 0xA nnn) = some (.ldI nnn) := by
  simp [decode]

theorem decode_wordXKK_fifteen_glyph (x : RegIx) : decode (wordXKK 0xF x 0x29) = some (.ldFVx x) := by
  simp [decode, decodeMisc]

end Sys2Proof

namespace Sys2Proof.Machine

theorem zextAddr_toNat (nnn : Addr12) : (zextAddr nnn).toNat = nnn.toNat :=
  BitVec.toNat_setWidth_of_le (by decide)

/-- Five times a byte is at most 1275, so the index register holds the exact product, whatever the byte. -/
theorem glyphAddress_toNat (a : Byte) : (glyphAddress a).toNat = a.toNat * 5 :=
  (BitVec.toNat_ofNat _ _).trans (Nat.mod_eq_of_lt (by omega))

theorem onlyIndexAndPc_advance_setI (s : State) (w : Word) : OnlyIndexAndPc s { s.advance with i := w } :=
  ⟨fun _ _ => rfl, ⟨rfl, rfl⟩, ⟨rfl, rfl⟩, rfl, ⟨rfl, rfl⟩, ⟨rfl, fun _ => rfl⟩, rfl, rfl, rfl⟩

/-- What every instruction does that puts a word in the index register, whichever number `n` the word is. -/
theorem exec_setI_of_toNat {i : Instr} {s : State} {w : Word} {n : Nat}
    (h : exec i s = .next { s.advance with i := w }) (hw : w.toNat = n) :
    ∃ t, exec i s = .next t ∧ t.i.toNat = n ∧ t.pc = s.pc + 2 ∧ OnlyIndexAndPc s t :=
  ⟨_, h, hw, rfl, onlyIndexAndPc_advance_setI s w⟩

/-- Settles O29: the literal zero-extended and the glyph address are both exact numbers in the index register. -/
theorem indexLoads : Obligations.IndexLoads := by
  intro nnn x s
  refine ⟨decode_wordNNN_ten nnn, decode_wordXKK_fifteen_glyph x, ?_, ?_⟩
  · exact exec_setI_of_toNat rfl (zextAddr_toNat nnn)
  · exact exec_setI_of_toNat rfl (glyphAddress_toNat (s.getV x))

end Sys2Proof.Machine
end

section
/-!
The framebuffer instructions (43_display.md). What a draw inside memory answers is said once, of `State.drawn`: its
pixels, its flag and its frame; the double draw and the draw after a CLS are then facts about that one state.
-/

namespace Sys2Proof.Machine

theorem getElem_blankFrame {r c : Nat} (hr : r < 32) (hc : c < 64) : blankFrame[r][c] = false := by
  simp [blankFrame]

theorem Frame.ext_pixel {f g : Frame} (h : ∀ (r c : Nat) (hr : r < 32) (hc : c < 64), f[r][c] = g[r][c]) : f = g :=
  Vector.ext fun r hr => Vector.ext fun c hc => h r c hr hc

theorem flagByte_eq_zero_or_one (b : Bool) : flagByte b = 0 ∨ flagByte b = 1 := by
  cases b <;> decide

theorem flagByte_eq_one_iff (b : Bool) : flagByte b = 1 ↔ b = true := by
  cases b <;> decide

/-- The frame of both instructions: new registers that agree outside VF, and any framebuffer, redraw flag and `pc`. -/
theorem onlyDisplayFlagAndPc_update (s : State) (v : Vector Byte 16) (pc : Word) (fb : Frame) (b : Bool)
    (hv : ∀ r : RegIx, r ≠ 15 → v[r.val] = s.v[r.val]) :
    OnlyDisplayFlagAndPc s { s with v := v, pc := pc, fb := fb, redraw := b } :=
  ⟨hv, rfl, ⟨rfl, rfl⟩, ⟨rfl, rfl⟩, rfl, ⟨rfl, fun _ => rfl⟩, rfl, rfl, rfl⟩

/-! ### CLS -/

/-- What CLS answers. -/
def State.cleared (s : State) : State := { s.advance with fb := blankFrame, redraw := true }

theorem exec_cls (s : State) : exec .cls s = .next s.cleared := rfl

/-- Settles O36: the answer is the advanced state with the blank frame and redraw set. -/
theorem clearTurnsEveryPixelOff : Obligations.ClearTurnsEveryPixelOff := by
  intro s
  have hframe : OnlyDisplayFlagAndPc s s.cleared := onlyDisplayFlagAndPc_update s s.v _ _ _ fun _ _ => rfl
  exact ⟨by decide, _, exec_cls s, fun _ _ => getElem_blankFrame, rfl, rfl, fun _ _ => rfl, hframe⟩

/-! ### DRW -/

/-- What DRW answers when its sprite is inside memory. -/
def State.drawn (s : State) (x y : RegIx) (n : Height) : State :=
  let d := drawSprite s.fb (s.getV x) (s.getV y) (s.loadBytes s.i.toNat n.val)
  { (s.setFlag (collisionFlag d.2)).advance with fb := d.1, redraw := true }

theorem exec_drw_of_inside (x y : RegIx) (n : Height) {s : State} (h : InsideMemory s.i.toNat n.val) :
    exec (.drw x y n) s = .next (s.drawn x y n) :=
  execDrw_of_inside x y n s h

theorem State.drawn_pixel (s : State) (x y : RegIx) (n : Height) {r c : Nat} (hr : r < 32) (hc : c < 64) :
    (s.drawn x y n).fb[r][c] = (s.fb[r][c] ^^ s.spriteAt x y n r c) := by
  rw [← Frame.on_of_lt _ hr hc, ← Frame.on_of_lt _ hr hc]
  exact drawRows_on _ _ _ _ hr hc

theorem State.drawn_flag (s : State) (x y : RegIx) (n : Height) : (s.drawn x y n).getV 15 =
    flagByte (drawSprite s.fb (s.getV x) (s.getV y) (s.loadBytes s.i.toNat n.val)).2 :=
  s.getV_setV_self 15 _

theorem State.drawn_flag_eq_zero_or_one (s : State) (x y : RegIx) (n : Height) :
    (s.drawn x y n).getV 15 = 0 ∨ (s.drawn x y n).getV 15 = 1 :=
  s.drawn_flag x y n ▸ flagByte_eq_zero_or_one _

theorem State.drawn_flag_eq_one_iff (s : State) (x y : RegIx) (n : Height) : (s.drawn x y n).getV 15 = 1 ↔
    ∃ (r c : Nat) (hr : r < 32) (hc : c < 64), s.spriteAt x y n r c = true ∧ s.fb[r][c] = true := by
  rw [State.drawn_flag, flagByte_eq_one_iff]
  exact drawRows_hit _ _ _ _

theorem onlyDisplayFlagAndPc_drawn (s : State) (x y : RegIx) (n : Height) :
    OnlyDisplayFlagAndPc s (s.drawn x y n) :=
  onlyDisplayFlagAndPc_update s _ _ _ _ fun _ hr => s.getV_setV_ne _ (Ne.symm hr)

/-- Settles O37: inside memory the answer is `State.drawn`; outside, the precise fault. -/
theorem drawTogglesTheSpritePixels : Obligations.DrawTogglesTheSpritePixels := by
  intro x y n s
  refine ⟨fun h => ?_, fun h => execDrw_of_outside x y n s h⟩
  exact ⟨_, exec_drw_of_inside x y n h, fun _ _ => s.drawn_pixel x y n, s.drawn_flag_eq_zero_or_one x y n,
    s.drawn_flag_eq_one_iff x y n, rfl, rfl, onlyDisplayFlagAndPc_drawn s x y n⟩

/-- Settles O38: a pixel toggled twice by the same bit is as it was, and a covered pixel that the second draw finds on
is one that the first found off. -/
theorem drawingTwiceRestoresTheFrame : Obligations.DrawingTwiceRestoresTheFrame := by
  intro x y x' y' n s u hs hu
  refine ⟨_, exec_drw_of_inside x y n hs, fun hfb hsprite => ?_⟩
  have hpixel {r c : Nat} (hr : r < 32) (hc : c < 64) : u.fb[r][c] = (s.fb[r][c] ^^ s.spriteAt x y n r c) := by
    rw [hfb, State.drawn_pixel]
  refine ⟨_, exec_drw_of_inside x' y' n hu, Frame.ext_pixel fun r c hr hc => ?_, ?_⟩
  · rw [State.drawn_pixel, hpixel hr hc, hsprite, Bool.xor_assoc, Bool.xor_self, Bool.xor_false]
  · rw [State.drawn_flag_eq_one_iff]
    refine exists₄_congr fun r c hr hc => ?_
    rw [hsprite]
    refine and_congr_right fun hbit => ?_
    rw [hpixel hr hc, hbit, Bool.xor_true, Bool.not_eq_true']

/-- Settles O39: a draw toggles pixels that CLS has turned off, so each is its sprite bit, and none can be hit. -/
theorem drawAfterClearShowsTheSprite : Obligations.DrawAfterClearShowsTheSprite := by
  intro x y n s h
  refine ⟨_, _, exec_cls s, exec_drw_of_inside x y n (s := s.cleared) h, ?_, rfl, fun r c hr hc => ?_⟩
  · refine (State.drawn_flag_eq_zero_or_one _ x y n).resolve_right fun hone => ?_
    obtain ⟨r, c, hr, hc, -, hon⟩ := (State.drawn_flag_eq_one_iff _ x y n).1 hone
    exact Bool.false_ne_true ((getElem_blankFrame hr hc).symm.trans hon)
  · calc (s.cleared.drawn x y n).fb[r][c]
        = (blankFrame[r][c] ^^ s.spriteAt x y n r c) := s.cleared.drawn_pixel x y n hr hc
      _ = s.spriteAt x y n r c := by rw [getElem_blankFrame hr hc, Bool.false_xor]

end Sys2Proof.Machine
end

section
/-!
LEMMAS. The state after reset (70_reset_and_hazards.md section 1).
-/

namespace Sys2Proof.Machine

@[simp] theorem State.resetWith_pc (font : Font) : (State.resetWith font).pc = 0x200 := rfl

/-- Settles O14: the reset value of `pc` is the same for every FONT, so for the default one. -/
theorem resetPcIsProgramBase : Obligations.ResetPcIsProgramBase := State.resetWith_pc Config.defaultFont

end Sys2Proof.Machine
end

section
/-!
LEMMAS. Decoding and encoding (30_encoding.md): the round trip of an instruction and of a legal word, the illegal words,
and the words that each row of the opcode table accepts.
-/

namespace Sys2Proof

theorem decode_encode (i : Instr) : decode (encode i) = some i := by
  cases i with
  | cls => rfl
  | ret => rfl
  | _ => simp [encode, decode, decodeAlu, decodeKey, decodeMisc]

/-! ### A word from its selecting fields -/

theorem wordNNN_of_topNibble {w : Word} {p : BitVec 4} (hp : topNibble w = p) : wordNNN p (fieldNNN w) = w :=
  hp ▸ wordNNN_fields w

theorem wordXKK_of_topNibble {w : Word} {p : BitVec 4} (hp : topNibble w = p) :
    wordXKK p (fieldX w) (fieldKK w) = w :=
  hp ▸ wordXKK_fields w

theorem wordXYN_of_topNibble {w : Word} {p : BitVec 4} (hp : topNibble w = p) :
    wordXYN p (fieldX w) (fieldY w) (fieldN w) = w :=
  hp ▸ wordXYN_fields w

theorem wordXKK_of_selectors {w : Word} {p : BitVec 4} {kk : Byte} (hp : topNibble w = p) (hk : fieldKK w = kk) :
    wordXKK p (fieldX w) kk = w :=
  hk ▸ wordXKK_of_topNibble hp

theorem wordXYN_of_selectors {w : Word} {p : BitVec 4} {n : Fin 16} (hp : topNibble w = p) (hn : fieldN w = n) :
    wordXYN p (fieldX w) (fieldY w) n = w :=
  hn ▸ wordXYN_of_topNibble hp

theorem encode_of_decodeSystem {w : Word} {i : Instr} (h : decodeSystem w = some i) : encode i = w := by
  unfold decodeSystem at h
  split at h
  · next hw => cases h; exact hw.symm
  · split at h
    · next hw => cases h; exact hw.symm
    · cases h

theorem encode_of_decodeAlu {w : Word} {i : Instr} (hp : topNibble w = 0x8) (h : decodeAlu w = some i) :
    encode i = w := by
  unfold decodeAlu at h
  split at h <;> cases h <;> exact wordXYN_of_selectors hp (Fin.ext ‹_›)

theorem encode_of_decodeKey {w : Word} {i : Instr} (hp : topNibble w = 0xE) (h : decodeKey w = some i) :
    encode i = w := by
  unfold decodeKey at h
  split at h <;> cases h <;> exact wordXKK_of_selectors hp (BitVec.eq_of_toNat_eq ‹_›)

theorem encode_of_decodeMisc {w : Word} {i : Instr} (hp : topNibble w = 0xF) (h : decodeMisc w = some i) :
    encode i = w := by
  unfold decodeMisc at h
  split at h <;> cases h <;> exact wordXKK_of_selectors hp (BitVec.eq_of_toNat_eq ‹_›)

theorem encode_of_decode {w : Word} {i : Instr} (h : decode w = some i) : encode i = w := by
  unfold decode at h
  split at h
  case h_1 => exact encode_of_decodeSystem h
  case h_2 | h_3 | h_11 | h_12 => cases h; exact wordNNN_of_topNibble (BitVec.eq_of_toNat_eq ‹_›)
  case h_4 | h_5 | h_7 | h_8 | h_13 => cases h; exact wordXKK_of_topNibble (BitVec.eq_of_toNat_eq ‹_›)
  case h_6 | h_10 =>
    split at h <;> cases h
    exact wordXYN_of_selectors (BitVec.eq_of_toNat_eq ‹_›) (Fin.ext ‹_›)
  case h_9 hp => exact encode_of_decodeAlu (BitVec.eq_of_toNat_eq hp) h
  case h_14 => cases h; exact wordXYN_of_topNibble (BitVec.eq_of_toNat_eq ‹_›)
  case h_15 hp => exact encode_of_decodeKey (BitVec.eq_of_toNat_eq hp) h
  case h_16 =>
    have hp : (topNibble w).toNat = 15 := by
      have := (topNibble w).isLt
      simp only [imp_false] at *
      omega
    exact encode_of_decodeMisc (BitVec.eq_of_toNat_eq hp) h

/-- Settles O2: the two directions are the round trips of an instruction and of a legal word. -/
theorem decodeAndEncodeAgree : Obligations.DecodeAndEncodeAgree := by
  intro w i
  exact ⟨encode_of_decode, fun h => h ▸ decode_encode i⟩

/-- Settles O1: every sample word is evaluated. -/
theorem sampleWordsDecode : Obligations.SampleWordsDecode := by
  unfold Obligations.SampleWordsDecode
  decide

/-! ### The illegal words (30_encoding.md R131) -/

theorem decodeSystem_eq_none (w : Word) : decodeSystem w = none ↔ w ≠ 0x00E0 ∧ w ≠ 0x00EE := by
  unfold decodeSystem
  split_ifs <;> simp_all

theorem decodeAlu_eq_none (w : Word) :
    decodeAlu w = none ↔ fieldN w ∈ ([8, 9, 10, 11, 12, 13, 15] : List (Fin 16)) := by
  unfold decodeAlu
  generalize fieldN w = n
  fin_cases n <;> simp

theorem decodeKey_eq_none (w : Word) : decodeKey w = none ↔ fieldKK w ∉ ([0x9E, 0xA1] : List Byte) := by
  unfold decodeKey
  split <;> simp_all [BitVec.toNat_eq]

theorem decodeMisc_eq_none (w : Word) :
    decodeMisc w = none ↔ fieldKK w ∉ ([0x07, 0x0A, 0x15, 0x18, 0x1E, 0x29, 0x33, 0x55, 0x65] : List Byte) := by
  unfold decodeMisc
  split <;> simp_all [BitVec.toNat_eq]

theorem nibble_cases (p : BitVec 4) :
    p = 0x0 ∨ p = 0x1 ∨ p = 0x2 ∨ p = 0x3 ∨ p = 0x4 ∨ p = 0x5 ∨ p = 0x6 ∨ p = 0x7 ∨
    p = 0x8 ∨ p = 0x9 ∨ p = 0xA ∨ p = 0xB ∨ p = 0xC ∨ p = 0xD ∨ p = 0xE ∨ p = 0xF := by
  decide +revert

/-- Settles O4: the top nibble selects the row of R131's table, or a format without illegal words. -/
theorem illegalWordsAreTheTabledOnes : Obligations.IllegalWordsAreTheTabledOnes := by
  intro w
  obtain hp | hp | hp | hp | hp | hp | hp | hp | hp | hp | hp | hp | hp | hp | hp | hp := nibble_cases (topNibble w) <;>
    simp [decode, hp, decodeSystem_eq_none, decodeAlu_eq_none, decodeKey_eq_none, decodeMisc_eq_none]

/-! ### The opcode table (30_encoding.md R130) -/

theorem topNibble_of_topMask {w : Word} {p : BitVec 4} (h : w &&& 0xF000 = wordNNN p 0) : topNibble w = p := by
  rw [and_topMask] at h
  simpa using congrArg topNibble h

theorem selectors_of_selectorMask {w : Word} {p : BitVec 4} {n : Fin 16} (h : w &&& 0xF00F = wordXYN p 0 0 n) :
    topNibble w = p ∧ fieldN w = n := by
  rw [and_selectorMask] at h
  exact ⟨by simpa using congrArg topNibble h, by simpa using congrArg fieldN h⟩

theorem selectors_of_functionMask {w : Word} {p : BitVec 4} {kk : Byte} (h : w &&& 0xF0FF = wordXKK p 0 kk) :
    topNibble w = p ∧ fieldKK w = kk := by
  rw [and_functionMask] at h
  exact ⟨by simpa using congrArg topNibble h, by simpa using congrArg fieldKK h⟩

theorem wordNNN_of_topMask {w : Word} {p : BitVec 4} (h : w &&& 0xF000 = wordNNN p 0) :
    wordNNN p (fieldNNN w) = w :=
  wordNNN_of_topNibble (topNibble_of_topMask h)

theorem wordXKK_of_topMask {w : Word} {p : BitVec 4} (h : w &&& 0xF000 = wordNNN p 0) :
    wordXKK p (fieldX w) (fieldKK w) = w :=
  wordXKK_of_topNibble (topNibble_of_topMask h)

theorem wordXYN_of_topMask {w : Word} {p : BitVec 4} (h : w &&& 0xF000 = wordNNN p 0) :
    wordXYN p (fieldX w) (fieldY w) (fieldN w) = w :=
  wordXYN_of_topNibble (topNibble_of_topMask h)

theorem wordXYN_of_selectorMask {w : Word} {p : BitVec 4} {n : Fin 16} (h : w &&& 0xF00F = wordXYN p 0 0 n) :
    wordXYN p (fieldX w) (fieldY w) n = w :=
  wordXYN_of_selectors (selectors_of_selectorMask h).1 (selectors_of_selectorMask h).2

theorem wordXKK_of_functionMask {w : Word} {p : BitVec 4} {kk : Byte} (h : w &&& 0xF0FF = wordXKK p 0 kk) :
    wordXKK p (fieldX w) kk = w :=
  wordXKK_of_selectors (selectors_of_functionMask h).1 (selectors_of_functionMask h).2

/-- Every word a row accepts is the word of an instruction with the row's mnemonic. -/
def OpcodeRow.Sound (r : OpcodeRow) : Prop :=
  ∀ w, w &&& r.mask = r.pattern → ∃ i : Instr, encode i = w ∧ i.mnemonic = r.mnemonic

theorem sound_opcodeRowsLow : ∀ r ∈ opcodeRowsLow, r.Sound := by
  simp only [opcodeRowsLow, List.forall_mem_cons, List.not_mem_nil, false_imp_iff, implies_true, and_true]
  refine ⟨?_, ?_, ?_, ?_, ?_, ?_, ?_, ?_, ?_⟩ <;> intro w h
  · exact ⟨.cls, h.symm.trans (and_fullMask w), rfl⟩
  · exact ⟨.ret, h.symm.trans (and_fullMask w), rfl⟩
  · exact ⟨.jp _, wordNNN_of_topMask h, rfl⟩
  · exact ⟨.call _, wordNNN_of_topMask h, rfl⟩
  · exact ⟨.seImm _ _, wordXKK_of_topMask h, rfl⟩
  · exact ⟨.sneImm _ _, wordXKK_of_topMask h, rfl⟩
  · exact ⟨.seReg _ _, wordXYN_of_selectorMask h, rfl⟩
  · exact ⟨.ldImm _ _, wordXKK_of_topMask h, rfl⟩
  · exact ⟨.addImm _ _, wordXKK_of_topMask h, rfl⟩

theorem sound_opcodeRowsAlu : ∀ r ∈ opcodeRowsAlu, r.Sound := by
  simp only [opcodeRowsAlu, List.forall_mem_cons, List.not_mem_nil, false_imp_iff, implies_true, and_true]
  refine ⟨?_, ?_, ?_, ?_, ?_, ?_, ?_, ?_, ?_⟩ <;> intro w h
  · exact ⟨.ldReg _ _, wordXYN_of_selectorMask h, rfl⟩
  · exact ⟨.orReg _ _, wordXYN_of_selectorMask h, rfl⟩
  · exact ⟨.andReg _ _, wordXYN_of_selectorMask h, rfl⟩
  · exact ⟨.xorReg _ _, wordXYN_of_selectorMask h, rfl⟩
  · exact ⟨.addReg _ _, wordXYN_of_selectorMask h, rfl⟩
  · exact ⟨.sub _ _, wordXYN_of_selectorMask h, rfl⟩
  · exact ⟨.shr _ _, wordXYN_of_selectorMask h, rfl⟩
  · exact ⟨.subn _ _, wordXYN_of_selectorMask h, rfl⟩
  · exact ⟨.shl _ _, wordXYN_of_selectorMask h, rfl⟩

theorem sound_opcodeRowsHigh : ∀ r ∈ opcodeRowsHigh, r.Sound := by
  simp only [opcodeRowsHigh, List.forall_mem_cons, List.not_mem_nil, false_imp_iff, implies_true, and_true]
  refine ⟨?_, ?_, ?_, ?_, ?_, ?_, ?_⟩ <;> intro w h
  · exact ⟨.sneReg _ _, wordXYN_of_selectorMask h, rfl⟩
  · exact ⟨.ldI _, wordNNN_of_topMask h, rfl⟩
  · exact ⟨.jpV0 _, wordNNN_of_topMask h, rfl⟩
  · exact ⟨.rnd _ _, wordXKK_of_topMask h, rfl⟩
  · exact ⟨.drw _ _ _, wordXYN_of_topMask h, rfl⟩
  · exact ⟨.skp _, wordXKK_of_functionMask h, rfl⟩
  · exact ⟨.sknp _, wordXKK_of_functionMask h, rfl⟩

theorem sound_opcodeRowsMisc : ∀ r ∈ opcodeRowsMisc, r.Sound := by
  simp only [opcodeRowsMisc, List.forall_mem_cons, List.not_mem_nil, false_imp_iff, implies_true, and_true]
  refine ⟨?_, ?_, ?_, ?_, ?_, ?_, ?_, ?_, ?_⟩ <;> intro w h
  · exact ⟨.ldVxDt _, wordXKK_of_functionMask h, rfl⟩
  · exact ⟨.ldVxK _, wordXKK_of_functionMask h, rfl⟩
  · exact ⟨.ldDtVx _, wordXKK_of_functionMask h, rfl⟩
  · exact ⟨.ldStVx _, wordXKK_of_functionMask h, rfl⟩
  · exact ⟨.addIVx _, wordXKK_of_functionMask h, rfl⟩
  · exact ⟨.ldFVx _, wordXKK_of_functionMask h, rfl⟩
  · exact ⟨.ldBVx _, wordXKK_of_functionMask h, rfl⟩
  · exact ⟨.ldMemVx _, wordXKK_of_functionMask h, rfl⟩
  · exact ⟨.ldVxMem _, wordXKK_of_functionMask h, rfl⟩

theorem sound_opcodeTable : ∀ r ∈ opcodeTable, r.Sound := by
  simp only [opcodeTable, List.forall_mem_append]
  exact ⟨⟨⟨sound_opcodeRowsLow, sound_opcodeRowsAlu⟩, sound_opcodeRowsHigh⟩, sound_opcodeRowsMisc⟩

theorem decode_of_accepts {r : OpcodeRow} (hr : r ∈ opcodeTable) {w : Word} (h : r.accepts w = true) :
    ∃ i, decode w = some i ∧ i.mnemonic = r.mnemonic := by
  obtain ⟨i, rfl, hm⟩ := sound_opcodeTable r hr w (beq_iff_eq.1 h)
  exact ⟨i, decode_encode i, hm⟩

theorem nodup_mnemonics : (opcodeTable.map OpcodeRow.mnemonic).Nodup := by decide

theorem row_eq_of_mnemonic_eq {r r' : OpcodeRow} (hr : r ∈ opcodeTable) (hr' : r' ∈ opcodeTable)
    (h : r.mnemonic = r'.mnemonic) : r = r' :=
  List.inj_on_of_nodup_map nodup_mnemonics hr hr' h

open Laws in
theorem tableRow_statement : ∀ i : Instr, TableRow.Statement i
  | .cls => TableRow.cls
  | .ret => TableRow.ret
  | .jp nnn => TableRow.jp nnn
  | .call nnn => TableRow.call nnn
  | .seImm x kk => TableRow.seImm x kk
  | .sneImm x kk => TableRow.sneImm x kk
  | .seReg x y => TableRow.seReg x y
  | .ldImm x kk => TableRow.ldImm x kk
  | .addImm x kk => TableRow.addImm x kk
  | .ldReg x y => TableRow.ldReg x y
  | .orReg x y => TableRow.orReg x y
  | .andReg x y => TableRow.andReg x y
  | .xorReg x y => TableRow.xorReg x y
  | .addReg x y => TableRow.addReg x y
  | .sub x y => TableRow.sub x y
  | .shr x y => TableRow.shr x y
  | .subn x y => TableRow.subn x y
  | .shl x y => TableRow.shl x y
  | .sneReg x y => TableRow.sneReg x y
  | .ldI nnn => TableRow.ldI nnn
  | .jpV0 nnn => TableRow.jpV0 nnn
  | .rnd x kk => TableRow.rnd x kk
  | .drw x y n => TableRow.drw x y n
  | .skp x => TableRow.skp x
  | .sknp x => TableRow.sknp x
  | .ldVxDt x => TableRow.ldVxDt x
  | .ldVxK x => TableRow.ldVxK x
  | .ldDtVx x => TableRow.ldDtVx x
  | .ldStVx x => TableRow.ldStVx x
  | .addIVx x => TableRow.addIVx x
  | .ldFVx x => TableRow.ldFVx x
  | .ldBVx x => TableRow.ldBVx x
  | .ldMemVx x => TableRow.ldMemVx x
  | .ldVxMem x => TableRow.ldVxMem x

/-- Settles O3: every row accepts only words of its own instruction, and the mnemonics of the rows are distinct. -/
theorem oneTableRowPerLegalWord : Obligations.OneTableRowPerLegalWord := by
  intro w
  refine ⟨fun i hi r hr => ⟨fun h => ?_, fun h => ?_⟩, fun i _ => ?_, fun hw r hr => ?_⟩
  · obtain ⟨j, hj, hm⟩ := decode_of_accepts hr h
    rw [← hm, Option.some.inj (hi.symm.trans hj)]
  · obtain ⟨r', hr', hm, hacc⟩ := tableRow_statement i
    rw [row_eq_of_mnemonic_eq hr hr' (h.trans hm.symm), ← encode_of_decode hi, hacc]
  · obtain ⟨r, hr, hm, -⟩ := tableRow_statement i
    exact ⟨r, hr, hm⟩
  · refine Bool.eq_false_iff.2 fun h => ?_
    obtain ⟨i, hi, -⟩ := decode_of_accepts hr h
    exact absurd (hw.symm.trans hi) nofun

end Sys2Proof
end

section
/-!
LEMMAS. The fetch, said once for each of its three outcomes (20_memory.md R90, R91), and the transfers whose target can
be one that faults there: JP, CALL, RET and JP V0 (40_control_flow.md).
-/

namespace Sys2Proof.Machine

theorem State.fetch_of_odd {s : State} (h : s.pc.toNat % 2 = 1) : s.fetch = .error .pcMisaligned :=
  if_pos h

theorem State.fetch_of_high {s : State} (heven : s.pc.toNat % 2 = 0) (hhigh : 0xFFE < s.pc.toNat) :
    s.fetch = .error .fetchOutOfRange := by
  rw [State.fetch, if_neg (by omega), if_pos (by omega)]

theorem State.fetch_of_fetchable {s : State} (h : PcFetchable s) : s.fetch = .ok s.wordAtPc :=
  (State.fetch_eq_ok s _).2 ⟨h.1, h.2, rfl⟩

/-- Settles O6: the two halves of a big-endian word are its bytes. -/
theorem fetchIsBigEndian : Obligations.FetchIsBigEndian := by
  intro s h
  refine ⟨_, State.fetch_of_fetchable h, rfl, ?_, ?_⟩
  · exact BitVec.extractLsb'_append_eq_left
  · exact BitVec.extractLsb'_append_eq_right

theorem zextAddr_odd {nnn : Addr12} (h : nnn.toNat % 2 = 1) : (zextAddr nnn).toNat % 2 = 1 := by
  rwa [zextAddr_toNat]

/-- Settles O16: the jump replaces `pc` by the literal, whose parity the next fetch looks at. -/
theorem jumpGoesToTheLiteral : Obligations.JumpGoesToTheLiteral := by
  intro nnn s
  exact ⟨decode_encode (.jp nnn), _, rfl, rfl, onlyPc_setPc s _, fun h => State.fetch_of_odd (zextAddr_odd h)⟩

theorem onlyStackAndPc_update (s : State) (stack : Vector Word 16) (sp : Fin 17) (pc : Word) :
    OnlyStackAndPc s { s with stack := stack, sp := sp, pc := pc } :=
  ⟨fun _ _ => rfl, rfl, ⟨rfl, rfl⟩, rfl, ⟨rfl, rfl⟩, ⟨rfl, fun _ => rfl⟩, rfl, rfl, rfl⟩

theorem exec_call_of_full (nnn : Addr12) (s : State) (h : ¬ s.sp.val < 16) :
    exec (.call nnn) s = .next (s.faultedWith .stackOverflow (some (encode (.call nnn)))) :=
  (execCall_eq nnn s).trans (dif_neg h)

theorem exec_ret_of_empty (s : State) (h : ¬ 0 < s.sp.val) :
    exec .ret s = .next (s.faultedWith .stackUnderflow (some (encode .ret))) :=
  (execRet_eq s).trans (dif_neg h)

/-- Settles O17: the push below depth 16, and the overflow at it. -/
theorem callPushesItsOwnAddress : Obligations.CallPushesItsOwnAddress := by
  intro nnn s
  refine ⟨decode_encode (.call nnn), fun h => ?_, fun h => exec_call_of_full nnn s (by omega)⟩
  refine ⟨_, exec_call_of_lt nnn s h, rfl, rfl, Vector.getElem_set_self h, fun k hk hne => ?_, ?_, fun hodd => ?_⟩
  · exact Vector.getElem_set_ne h hk hne.symm
  · exact onlyStackAndPc_update s _ _ _
  · exact State.fetch_of_odd (zextAddr_odd hodd)

/-- Under the invariant the entry a return pops is at most 0xFFE, so the resume address does not wrap. -/
theorem State.Inv.toNat_resume {s : State} (hinv : s.Inv) (h : 0 < s.sp.val) :
    (s.stack[s.sp.val - 1] + 2).toNat = s.stack[s.sp.val - 1].toNat + 2 ∧
      (s.stack[s.sp.val - 1] + 2).toNat ≤ 0x1000 := by
  obtain ⟨-, hle⟩ := hinv.stack (s.sp.val - 1) (by omega) (by omega)
  generalize s.stack[s.sp.val - 1] = r at hle ⊢
  bv_omega

/-- Settles O18: the pop above depth 0, and the underflow at it. -/
theorem returnResumesAfterThePoppedEntry : Obligations.ReturnResumesAfterThePoppedEntry := by
  intro s
  refine ⟨decode_encode .ret, fun h => ?_, fun h => exec_ret_of_empty s (by omega)⟩
  exact ⟨_, exec_ret_of_pos s h, rfl, rfl, rfl, onlyStackAndPc_update s _ _ _, fun hinv => hinv.toNat_resume h⟩

theorem indexedTarget_toNat (nnn : Addr12) (b : Byte) : (indexedTarget nnn b).toNat = nnn.toNat + b.toNat := by
  unfold indexedTarget
  bv_omega

theorem indexedTarget_le (nnn : Addr12) (b : Byte) : (indexedTarget nnn b).toNat ≤ 0x10FE := by
  rw [indexedTarget_toNat]
  omega

/-- Settles O22: the sum of a 12-bit and an 8-bit number is exact in the 16-bit `pc`. -/
theorem indexedJumpAddsV0Exactly : Obligations.IndexedJumpAddsV0Exactly := by
  intro nnn s
  exact ⟨decode_encode (.jpV0 nnn), _, rfl, indexedTarget_toNat nnn _, indexedTarget_le nnn _, onlyPc_setPc s _,
    State.fetch_of_odd, State.fetch_of_high⟩

end Sys2Proof.Machine
end

section
/-!
LEMMAS. The remaining ALU instructions (41_alu.md): the logical ones and RND answer `State.writeResult`, the five flag
instructions `State.writeResultFlag`; result, flag and frame of the latter are said once here.
-/

namespace Sys2Proof.Machine

/-! ### Logic -/

/-- What every instruction does that writes V[x] and no flag, for the bits of the result. -/
theorem exec_writeResult_of_bits {i : Instr} {s : State} {x : RegIx} {b : Byte} {f : Nat → Bool}
    (h : exec i s = .next (s.writeResult x b)) (hb : ∀ k, b.getLsbD k = f k) :
    ∃ t, exec i s = .next t ∧ (∀ k, (t.getV x).getLsbD k = f k) ∧ KeepsRegs (· = x) s t ∧ t.pc = s.pc + 2 ∧
      OnlyRegsAndPc s t :=
  ⟨_, h, (s.getV_writeResult_self x b).symm ▸ hb, writeResult_frame s x b⟩

/-- Settles O24: the byte operations are bitwise by definition. -/
theorem logicIsBitwiseAndKeepsTheFlag : Obligations.LogicIsBitwiseAndKeepsTheFlag := by
  intro x y s
  refine ⟨?_, ?_, ?_⟩
  · exact exec_writeResult_of_bits rfl fun k => BitVec.getLsbD_or
  · exact exec_writeResult_of_bits rfl fun k => BitVec.getLsbD_and
  · exact exec_writeResult_of_bits rfl fun k => BitVec.getLsbD_xor

/-! ### The flag instructions -/

theorem State.getV_writeResultFlag_flag (s : State) (x : RegIx) (b flag : Byte) :
    (s.writeResultFlag x b flag).getV 15 = flag :=
  (s.setV x b).getV_setV_self 15 flag

theorem State.getV_writeResultFlag_of_ne (s : State) {x : RegIx} (b flag : Byte) (hx : x ≠ 15) :
    (s.writeResultFlag x b flag).getV x = b :=
  ((s.setV x b).getV_setV_ne flag hx.symm).trans (s.getV_setV_self x b)

theorem keepsRegs_writeResultFlag (s : State) (x : RegIx) (b flag : Byte) :
    KeepsRegs (fun r => r = x ∨ r = 15) s (s.writeResultFlag x b flag) := by
  intro r hr
  obtain ⟨hx, hf⟩ := not_or.1 hr
  exact ((s.setV x b).getV_setV_ne flag (Ne.symm hf)).trans (s.getV_setV_ne b (Ne.symm hx))

theorem onlyRegsAndPc_writeResultFlag (s : State) (x : RegIx) (b flag : Byte) :
    OnlyRegsAndPc s (s.writeResultFlag x b flag) :=
  ⟨rfl, ⟨rfl, rfl⟩, ⟨rfl, rfl⟩, rfl, ⟨rfl, rfl⟩, ⟨rfl, fun _ => rfl⟩, rfl, rfl, rfl⟩

/-- What every flag instruction does, for the number its result is and any property of its flag. -/
theorem exec_writeResultFlag {i : Instr} {s : State} {x : RegIx} {b flag : Byte} {n : Nat} (P : Byte → Prop)
    (h : exec i s = .next (s.writeResultFlag x b flag)) (hb : b.toNat = n) (hflag : P flag) :
    ∃ t, exec i s = .next t ∧ (x ≠ 15 → (t.getV x).toNat = n) ∧ P (t.getV 15) ∧
      KeepsRegs (fun r => r = x ∨ r = 15) s t ∧ t.pc = s.pc + 2 ∧ OnlyRegsAndPc s t :=
  ⟨_, h, fun hx => (s.getV_writeResultFlag_of_ne b flag hx).symm ▸ hb,
    (s.getV_writeResultFlag_flag x b flag).symm ▸ hflag, keepsRegs_writeResultFlag s x b flag, rfl,
    onlyRegsAndPc_writeResultFlag s x b flag⟩

theorem flagByte_decide (p : Prop) [Decidable p] : flagByte (decide p) = if p then 1 else 0 := by
  simp [flagByte]

theorem toNat_sub_eq (a b : Byte) : (a - b).toNat = (a.toNat + 256 - b.toNat) % 256 := by
  rw [BitVec.toNat_sub]
  omega

theorem toNat_shr_one (a : Byte) : (a >>> 1).toNat = a.toNat / 2 :=
  BitVec.toNat_ushiftRight a 1

theorem toNat_shl_one (a : Byte) : (a <<< 1).toNat = a.toNat * 2 % 256 := by
  rw [BitVec.toNat_shiftLeft, Nat.shiftLeft_eq, Nat.pow_one]

theorem toNat_lowBitFlag (a : Byte) : (lowBitFlag a).toNat = a.toNat % 2 :=
  (BitVec.toNat_and a 1).trans (Nat.and_one_is_mod _)

theorem toNat_highBitFlag (a : Byte) : (highBitFlag a).toNat = a.toNat / 128 :=
  (BitVec.toNat_ushiftRight a 7).trans (Nat.shiftRight_eq_div_pow _ _)

/-- Settles O25: the sum in the byte type, and the carry of the exact sum. -/
theorem addSetsCarry : Obligations.AddSetsCarry := by
  intro x y s
  exact exec_writeResultFlag (· = _) rfl (BitVec.toNat_add _ _) (flagByte_decide _)

/-- Settles O26: the two differences in the byte type, with the operands exchanged. -/
theorem subtractionsSetNoBorrow : Obligations.SubtractionsSetNoBorrow := by
  intro x y s
  refine ⟨?_, ?_⟩
  · exact exec_writeResultFlag (· = _) rfl (toNat_sub_eq _ _) (flagByte_decide _)
  · exact exec_writeResultFlag (· = _) rfl (toNat_sub_eq _ _) (flagByte_decide _)

/-- Settles O27: the shifts by one as a division and a product, and the bit each shifts out. -/
theorem shiftsUseVxOnly : Obligations.ShiftsUseVxOnly := by
  intro x y s
  refine ⟨?_, ?_⟩
  · exact exec_writeResultFlag (fun f => f.toNat = _) rfl (toNat_shr_one _) (toNat_lowBitFlag _)
  · exact exec_writeResultFlag (fun f => f.toNat = _) rfl (toNat_shl_one _) (toNat_highBitFlag _)

/-! ### RND -/

theorem exec_rnd (x : RegIx) (kk : Byte) (s : State) :
    exec (.rnd x kk) s = .next { s.writeResult x (Config.rand s.draws &&& kk) with draws := s.draws + 1 } := rfl

/-- Settles O28: the draw is masked by a bitwise and, and the counter goes up beside the register write. -/
theorem randomByteIsMasked : Obligations.RandomByteIsMasked := by
  intro x kk s
  have hval := s.getV_writeResult_self x (Config.rand s.draws &&& kk)
  refine ⟨_, exec_rnd x kk s, fun k => ?_, fun hk => ?_, fun hk => ?_, rfl, keepsRegs_writeResult s x _, rfl, rfl,
    ⟨rfl, rfl⟩, ⟨rfl, rfl⟩, rfl, ⟨rfl, rfl⟩, ⟨rfl, fun _ => rfl⟩, rfl, rfl⟩
  · exact (congrArg (BitVec.getLsbD · k) hval).trans BitVec.getLsbD_and
  · subst hk
    exact hval.trans BitVec.and_zero
  · subst hk
    exact hval.trans BitVec.and_allOnes

end Sys2Proof.Machine
end

section
/-!
LEMMAS. Fx1E, the stores and the loads (42_index_memory.md): the check each makes as a bound on the last address, the
bytes a store leaves, the registers a load leaves, and the two in a row.
-/

namespace Sys2Proof.Machine

/-! ### Fx1E -/

theorem toNat_ofNat_of_le {n : Nat} (h : n ≤ 0xFFFF) : (BitVec.ofNat 16 n).toNat = n :=
  (BitVec.toNat_ofNat n 16).trans (Nat.mod_eq_of_lt (by omega))

/-- Settles O30: up to 0xFFFF the sum fits in the register; past it the check fails. -/
theorem indexAddIsExactOrFaults : Obligations.IndexAddIsExactOrFaults := by
  intro x s
  refine ⟨fun h => ?_, fun h => ?_⟩
  · exact exec_setI_of_toNat ((execAddIVx_eq x s).trans (if_pos h)) (toNat_ofNat_of_le h)
  · exact (execAddIVx_eq x s).trans (if_neg (by omega))

/-! ### Stores -/

theorem insideMemory_succ (a n : Nat) : InsideMemory a (n + 1) ↔ a + n ≤ 0xFFF := by
  unfold InsideMemory
  omega

/-- The state a store of `bytes` at I leaves. -/
def State.stored (s : State) (bytes : List Byte) : State :=
  { s.advance with mem := s.storeBytes s.i.toNat bytes }

theorem exec_ldBVx_of_le (x : RegIx) {s : State} (h : s.i.toNat + 2 ≤ 0xFFF) :
    exec (.ldBVx x) s = .next (s.stored (bcdDigits (s.getV x))) :=
  execLdBVx_of_inside x s ((insideMemory_succ _ 2).2 h)

theorem exec_ldBVx_of_gt (x : RegIx) {s : State} (h : 0xFFF < s.i.toNat + 2) :
    exec (.ldBVx x) s = .next (s.faultedWith .addressOutOfRange (some (encode (.ldBVx x)))) :=
  execLdBVx_of_outside x s (mt (insideMemory_succ _ 2).1 (not_le.2 h))

theorem exec_ldMemVx_of_le {x : RegIx} {s : State} (h : s.i.toNat + x.val ≤ 0xFFF) :
    exec (.ldMemVx x) s = .next (s.stored (regBlock s.v x)) :=
  execLdMemVx_of_inside x s ((insideMemory_succ _ x.val).2 h)

theorem exec_ldMemVx_of_gt {x : RegIx} {s : State} (h : 0xFFF < s.i.toNat + x.val) :
    exec (.ldMemVx x) s = .next (s.faultedWith .addressOutOfRange (some (encode (.ldMemVx x)))) :=
  execLdMemVx_of_outside x s (mt (insideMemory_succ _ x.val).1 (not_le.2 h))

theorem State.byte_stored_inside {s : State} (hwf : Memory.wf s.font s.mem) {bytes : List Byte}
    (hfit : s.i.toNat + bytes.length ≤ Config.memSize) {k : Nat} (hk : k < bytes.length) :
    (s.stored bytes).byte (s.i.toNat + k) = bytes[k] :=
  Memory.byte_storeBytes_inside hwf hfit hk

theorem onlyBytesAndPc_stored (s : State) (bytes : List Byte) :
    OnlyBytesAndPc s.i.toNat bytes.length s (s.stored bytes) :=
  ⟨fun _ _ => rfl, rfl, ⟨rfl, rfl⟩, ⟨rfl, rfl⟩, rfl, ⟨rfl, rfl⟩,
    ⟨rfl, fun _ hb => Memory.byte_storeBytes_outside s.font s.mem hb⟩, rfl, rfl, rfl⟩

theorem toNat_bcdDigits (a : Byte) :
    (bcdDigits a)[0].toNat = a.toNat / 100 ∧ (bcdDigits a)[1].toNat = a.toNat / 10 % 10 ∧
      (bcdDigits a)[2].toNat = a.toNat % 10 := by
  have hlt := a.isLt
  refine ⟨?_, ?_, ?_⟩ <;> exact (BitVec.toNat_ofNat _ 8).trans (Nat.mod_eq_of_lt (by omega))

/-- Settles O31: each of the three digits is less than 256, so its byte holds it. -/
theorem decimalDigitsAreStored : Obligations.DecimalDigitsAreStored := by
  intro x s
  refine ⟨decode_encode (.ldBVx x), fun hwf h => ?_, exec_ldBVx_of_gt x⟩
  have hfit : s.i.toNat + (bcdDigits (s.getV x)).length ≤ Config.memSize := by
    rw [length_bcdDigits, Config.memSize]
    omega
  obtain ⟨hundreds, tens, ones⟩ := toNat_bcdDigits (s.getV x)
  have hbyte {k : Nat} (hk : k < 3) := State.byte_stored_inside hwf hfit hk
  refine ⟨_, exec_ldBVx_of_le x h, ?_, ?_, ?_, rfl, onlyBytesAndPc_stored s _⟩
  · exact (congrArg BitVec.toNat (hbyte (k := 0) (by decide))).trans hundreds
  · exact (congrArg BitVec.toNat (hbyte (k := 1) (by decide))).trans tens
  · exact (congrArg BitVec.toNat (hbyte (k := 2) (by decide))).trans ones

theorem State.byte_stored_regBlock {s : State} (hwf : Memory.wf s.font s.mem) {x k : RegIx}
    (h : s.i.toNat + x.val ≤ 0xFFF) (hk : k ≤ x) : (s.stored (regBlock s.v x)).byte (s.i.toNat + k.val) = s.getV k := by
  have hfit : s.i.toNat + (regBlock s.v x).length ≤ Config.memSize := by
    rw [length_regBlock, Config.memSize]
    omega
  have hlt : k.val < (regBlock s.v x).length := by
    rw [length_regBlock]
    exact Nat.lt_succ_of_le hk
  exact (State.byte_stored_inside hwf hfit hlt).trans (getElem_regBlock s.v x k.val hlt)

/-- Settles O32: the stored bytes are the register block. -/
theorem registerBlockIsStored : Obligations.RegisterBlockIsStored := by
  intro x s
  refine ⟨fun hwf h => ?_, exec_ldMemVx_of_gt⟩
  refine ⟨_, exec_ldMemVx_of_le h, fun k hk => State.byte_stored_regBlock hwf h hk, rfl, ?_⟩
  exact length_regBlock s.v x ▸ onlyBytesAndPc_stored s (regBlock s.v x)

/-! ### Loads -/

/-- The state a load of V0 to Vx from I leaves. -/
def State.loaded (s : State) (x : RegIx) : State :=
  { s.advance with v := fillV s.v 0 (s.loadBytes s.i.toNat (x.val + 1)) }

theorem exec_ldVxMem_of_le {x : RegIx} {s : State} (h : s.i.toNat + x.val ≤ 0xFFF) :
    exec (.ldVxMem x) s = .next (s.loaded x) :=
  execLdVxMem_of_inside x s ((insideMemory_succ _ x.val).2 h)

theorem exec_ldVxMem_of_gt {x : RegIx} {s : State} (h : 0xFFF < s.i.toNat + x.val) :
    exec (.ldVxMem x) s = .next (s.faultedWith .addressOutOfRange (some (encode (.ldVxMem x)))) :=
  execLdVxMem_of_outside x s (mt (insideMemory_succ _ x.val).1 (not_le.2 h))

theorem State.getV_loaded (s : State) (x r : RegIx) :
    (s.loaded x).getV r = if r ≤ x then s.byte (s.i.toNat + r.val) else s.getV r := by
  refine (getElem_fillV _ _ _ r.val r.isLt).trans ?_
  by_cases h : r ≤ x
  · have hlt : r.val < x.val + 1 := Nat.lt_succ_of_le h
    rw [dif_pos ⟨r.val.zero_le, by rwa [Memory.length_loadBytes, Nat.zero_add]⟩, if_pos h, Memory.getElem_loadBytes,
      Nat.sub_zero]
  · have hge : ¬ r.val < x.val + 1 := fun hlt => h (Nat.le_of_lt_succ hlt)
    rw [dif_neg (by rwa [Memory.length_loadBytes, Nat.zero_add, and_iff_right r.val.zero_le]), if_neg h]
    rfl

theorem keepsRegs_loaded (s : State) (x : RegIx) : KeepsRegs (fun r => r ≤ x) s (s.loaded x) :=
  fun r hr => (s.getV_loaded x r).trans (if_neg hr)

theorem onlyRegsAndPc_loaded (s : State) (x : RegIx) : OnlyRegsAndPc s (s.loaded x) :=
  ⟨rfl, ⟨rfl, rfl⟩, ⟨rfl, rfl⟩, rfl, ⟨rfl, rfl⟩, ⟨rfl, fun _ => rfl⟩, rfl, rfl, rfl⟩

/-- Settles O33: a register of the block takes the byte at its offset, and the others are kept. -/
theorem registerBlockIsLoaded : Obligations.RegisterBlockIsLoaded := by
  intro x s
  refine ⟨fun h => ?_, exec_ldVxMem_of_gt⟩
  exact ⟨_, exec_ldVxMem_of_le h, fun k hk => (s.getV_loaded x k).trans (if_pos hk), keepsRegs_loaded s x, rfl,
    onlyRegsAndPc_loaded s x⟩

/-! ### A store, then a read of what it stored -/

/-- Settles O34: the load reads at I + k the byte that the store put there, V[k]. -/
theorem storeThenLoadRestoresTheRegisters : Obligations.StoreThenLoadRestoresTheRegisters := by
  intro x s u hwf h
  refine ⟨_, exec_ldMemVx_of_le h, fun hfont hmem hi => ?_⟩
  have hi' : u.i = s.i := hi
  refine ⟨_, exec_ldVxMem_of_le (x := x) (s := u) (by rwa [hi']), fun k hk => ?_⟩
  calc (u.loaded x).getV k
      = u.byte (u.i.toNat + k.val) := (u.getV_loaded x k).trans (if_pos hk)
    _ = (s.stored (regBlock s.v x)).byte (s.i.toNat + k.val) := by rw [State.byte_congr hfont hmem, hi']
    _ = s.getV k := State.byte_stored_regBlock hwf h hk

/-- Settles O35: the fetch reads the bytes that the store put at I + k and I + k + 1. -/
theorem storedCodeIsFetched : Obligations.StoredCodeIsFetched := by
  intro x k s hwf hk h
  have hlt : k.val < x.val := hk
  have hsucc : (k + 1).val = k.val + 1 := Fin.val_add_one_of_lt' (by omega)
  have hhi := State.byte_stored_regBlock hwf h hk.le
  have hlo := State.byte_stored_regBlock hwf h (Fin.add_one_le_of_lt hk)
  rw [hsucc, ← Nat.add_assoc] at hlo
  refine ⟨_, exec_ldMemVx_of_le h, fun u hfont hmem hpc heven => (State.fetch_eq_ok u _).2 ⟨heven, by omega, ?_⟩⟩
  rw [State.byte_congr hfont hmem, State.byte_congr hfont hmem, hpc, hhi, hlo]

end Sys2Proof.Machine
end

section
/-!
LEMMAS. Keys and timers (44_keys_timers.md), the timer check (60_exceptions.md R370), and the timed form of a timer.
-/

namespace Sys2Proof.Machine

/-! ### Keys -/

theorem exec_skp_of_lt {x : RegIx} {s : State} (h : (s.getV x).toNat < 16) :
    exec (.skp x) s = .next (s.skip s.keys[(s.getV x).toNat]) :=
  (execSkp_eq x s).trans (dif_pos h)

theorem exec_skp_of_ge {x : RegIx} {s : State} (h : ¬ (s.getV x).toNat < 16) :
    exec (.skp x) s = .next (s.faultedWith .keyIndexOutOfRange (some (encode (.skp x)))) :=
  (execSkp_eq x s).trans (dif_neg h)

theorem exec_sknp_of_lt {x : RegIx} {s : State} (h : (s.getV x).toNat < 16) :
    exec (.sknp x) s = .next (s.skip !s.keys[(s.getV x).toNat]) :=
  (execSknp_eq x s).trans (dif_pos h)

theorem exec_sknp_of_ge {x : RegIx} {s : State} (h : ¬ (s.getV x).toNat < 16) :
    exec (.sknp x) s = .next (s.faultedWith .keyIndexOutOfRange (some (encode (.sknp x)))) :=
  (execSknp_eq x s).trans (dif_neg h)

theorem State.skip_not_pc (s : State) (c : Bool) : (s.skip !c).pc = if c = true then s.pc + 2 else s.pc + 4 := by
  cases c
  · exact s.skip_pc true
  · exact s.skip_pc false

/-- Settles O40: both skips select on the level of the key, when V[x] names one. -/
theorem keySkipsReadTheMatrix : Obligations.KeySkipsReadTheMatrix := by
  intro x s
  refine ⟨fun h => ⟨?_, ?_⟩, fun h => ⟨exec_skp_of_ge (by omega), exec_sknp_of_ge (by omega)⟩⟩
  · exact ⟨_, exec_skp_of_lt h, s.skip_pc _, onlyPc_skip s _⟩
  · exact ⟨_, exec_sknp_of_lt h, s.skip_not_pc _, onlyPc_skip s _⟩

theorem exec_ldVxK_of_some {x : RegIx} {s : State} {k : Fin 16} (h : highestKey s.keys = some k) :
    exec (.ldVxK x) s = .next (s.writeResult x (BitVec.ofNat 8 k.val)) := by
  simp only [exec, execLdVxK, h]
  rfl

theorem exec_ldVxK_of_none {x : RegIx} {s : State} (h : highestKey s.keys = none) : exec (.ldVxK x) s = .next s := by
  simp only [exec, execLdVxK, h]

/-- Settles O41: the scan finds a greatest pressed key, or none when none is pressed. -/
theorem keyWaitTakesTheHighestKey : Obligations.KeyWaitTakesTheHighestKey := by
  intro x s
  refine ⟨fun k hk hmax => ?_, fun hnone => exec_ldVxK_of_none ((highestKey_eq_none _).2 hnone)⟩
  have habove (j : Fin 16) (hj : k < j) : s.keys[j.val] = false :=
    Bool.eq_false_iff.2 fun hpressed => absurd (hmax j hpressed) (not_le.2 hj)
  refine ⟨_, exec_ldVxK_of_some ((highestKey_eq_some _ k).2 ⟨hk, habove⟩), ?_, writeResult_frame s x _⟩
  rw [State.getV_writeResult_self, BitVec.toNat_ofNat]
  omega

/-! ### Timers -/

/-- Settles O42: Fx07 writes the value of dt as a result. -/
theorem delayTimerIsRead : Obligations.DelayTimerIsRead := by
  intro x s
  exact ⟨decode_encode (.ldVxDt x), _, rfl, s.getV_writeResult_self x s.dt.value, writeResult_frame s x _⟩

theorem Timer.check_of_due {t : Timer} (h : t.value ≠ 0 ∧ t.due = true) : t.check = ⟨t.value - 1, false⟩ := if_pos h

theorem Timer.check_of_not_due {t : Timer} (h : ¬ (t.value ≠ 0 ∧ t.due = true)) : t.check = t := if_neg h

/-- A timer that was just set is not due, so the check leaves it. -/
theorem Timer.check_set (t : Timer) (a : Byte) : (t.set a).check = ⟨a, false⟩ :=
  Timer.check_of_not_due fun h => absurd h.2 Bool.false_ne_true

theorem onlyTimersAndPc_update (s : State) (dt st : Timer) (pc : Word) :
    OnlyTimersAndPc s { s with dt := dt, st := st, pc := pc } :=
  ⟨fun _ _ => rfl, rfl, ⟨rfl, rfl⟩, rfl, ⟨rfl, rfl⟩, ⟨rfl, fun _ => rfl⟩, rfl, rfl, rfl⟩

/-- Settles O43: each of the two is an update of its own timer by `Timer.set`. -/
theorem timersAreSet : Obligations.TimersAreSet := by
  intro x s
  refine ⟨decode_encode (.ldDtVx x), decode_encode (.ldStVx x), ?_, ?_⟩
  · exact ⟨_, rfl, rfl, s.dt.check_set (s.getV x), rfl, rfl, onlyTimersAndPc_update s _ _ _⟩
  · exact ⟨_, rfl, rfl, s.st.check_set (s.getV x), rfl, rfl, onlyTimersAndPc_update s _ _ _⟩

theorem toNat_sub_one_add_one {a : Byte} (h : a ≠ 0) : (a - 1).toNat + 1 = a.toNat := by
  bv_omega

/-- What the check does to a timer that is nonzero and due. -/
theorem Timer.check_falls {t : Timer} (h : t.value ≠ 0 ∧ t.due = true) :
    t.check.value.toNat + 1 = t.value.toNat ∧ t.check.due = false := by
  rw [Timer.check_of_due h]
  exact ⟨toNat_sub_one_add_one h.1, rfl⟩

/-- Settles O44: the check of the state is the check of each timer. -/
theorem timerCheckDecrementsDueTimers : Obligations.TimerCheckDecrementsDueTimers := by
  intro s
  exact ⟨Timer.check_falls, Timer.check_of_not_due, Timer.check_falls, Timer.check_of_not_due, rfl⟩

/-! ### The timed form -/

theorem TimedTimer.untimed_of_elapsed_zero {period : Nat} (h : 0 < period) (a : Byte) :
    TimedTimer.untimed period ⟨a, 0⟩ = ⟨a, false⟩ := by
  simp only [TimedTimer.untimed, TimedTimer.isDue]
  rw [decide_eq_false (not_le.2 h)]

/-- The check commutes with the untimed image: both forms ask for a nonzero value and a due bit. -/
theorem TimedTimer.untimed_check {period : Nat} (h : 0 < period) (t : TimedTimer) :
    (t.check period).untimed period = (t.untimed period).check := by
  by_cases hdue : t.value ≠ 0 ∧ period ≤ t.elapsed
  · have huntimed : (t.untimed period).check = ⟨t.value - 1, false⟩ :=
      Timer.check_of_due ⟨hdue.1, decide_eq_true hdue.2⟩
    rw [huntimed, TimedTimer.check, if_pos hdue, TimedTimer.untimed_of_elapsed_zero h]
  · have huntimed : (t.untimed period).check = t.untimed period :=
      Timer.check_of_not_due fun hd => hdue ⟨hd.1, of_decide_eq_true hd.2⟩
    rw [huntimed, TimedTimer.check, if_neg hdue]

theorem TimedTimer.isDue_pass {period : Nat} {t : TimedTimer} (h : t.isDue period = true) (d : Nat) :
    (t.pass d).isDue period = true :=
  decide_eq_true ((of_decide_eq_true h).trans (Nat.le_add_right _ d))

/-- Time passing is the untimed passing with the due bit of the timer after it, since no due bit is lost. -/
theorem TimedTimer.untimed_pass (period : Nat) (t : TimedTimer) (d : Nat) :
    (t.pass d).untimed period = (t.untimed period).pass ((t.pass d).isDue period) := by
  have hor : (t.pass d).isDue period = (t.isDue period || (t.pass d).isDue period) := by
    cases h : t.isDue period with
    | false => rfl
    | true => exact TimedTimer.isDue_pass h d
  exact congrArg (Timer.mk t.value) hor

/-- Settles O46: each operation commutes with the untimed image, and an elapsed time of 0 is not due. -/
theorem untimedTimerRefinesTimed : Obligations.UntimedTimerRefinesTimed := by
  intro period t a d h
  exact ⟨t.untimed_check h, TimedTimer.untimed_of_elapsed_zero h a, TimedTimer.untimed_of_elapsed_zero h 0,
    TimedTimer.untimed_of_elapsed_zero h 0, ⟨_, t.untimed_pass period d⟩, TimedTimer.isDue_pass⟩

end Sys2Proof.Machine
end

section
/-!
LEMMAS. What every instruction can do, said once: `Instr.effect` is the state an instruction leaves when its own check
passes, and `exec` answers that state or the precise fault. Each field of the effect then follows from the instruction
alone, and so do the statements about which instruction touches what.
-/

namespace Sys2Proof

open Sys2Proof.Machine

/-- The state an instruction leaves when its own check passes; `exec_of_okIn` ties it to `exec`. -/
def Instr.effect : Instr → State → State
  | .cls, s => s.cleared
  | .ret, s => { s with sp := ⟨s.sp.val - 1, by omega⟩, pc := s.stack[s.sp.val - 1] + 2 }
  | .jp nnn, s => { s with pc := zextAddr nnn }
  | .call nnn, s =>
    { s with
      stack := s.stack.setIfInBounds s.sp.val s.pc
      sp := ⟨min (s.sp.val + 1) 16, by omega⟩
      pc := zextAddr nnn }
  | .seImm x kk, s => { s with pc := if s.getV x == kk then s.pc + 4 else s.pc + 2 }
  | .sneImm x kk, s => { s with pc := if s.getV x != kk then s.pc + 4 else s.pc + 2 }
  | .seReg x y, s => { s with pc := if s.getV x == s.getV y then s.pc + 4 else s.pc + 2 }
  | .sneReg x y, s => { s with pc := if s.getV x != s.getV y then s.pc + 4 else s.pc + 2 }
  | .jpV0 nnn, s => { s with pc := indexedTarget nnn (s.getV 0) }
  | .ldImm x kk, s => s.writeResult x kk
  | .addImm x kk, s => s.writeResult x (s.getV x + kk)
  | .ldReg x y, s => s.writeResult x (s.getV y)
  | .orReg x y, s => s.writeResult x (s.getV x ||| s.getV y)
  | .andReg x y, s => s.writeResult x (s.getV x &&& s.getV y)
  | .xorReg x y, s => s.writeResult x (s.getV x ^^^ s.getV y)
  | .addReg x y, s => s.writeResultFlag x (s.getV x + s.getV y) (carryFlag (s.getV x) (s.getV y))
  | .sub x y, s => s.writeResultFlag x (s.getV x - s.getV y) (noBorrowFlag (s.getV x) (s.getV y))
  | .shr x _, s => s.writeResultFlag x (s.getV x >>> 1) (lowBitFlag (s.getV x))
  | .subn x y, s => s.writeResultFlag x (s.getV y - s.getV x) (noBorrowFlag (s.getV y) (s.getV x))
  | .shl x _, s => s.writeResultFlag x (s.getV x <<< 1) (highBitFlag (s.getV x))
  | .rnd x kk, s => { s.writeResult x (Config.rand s.draws &&& kk) with draws := s.draws + 1 }
  | .ldI nnn, s => { s.advance with i := zextAddr nnn }
  | .drw x y n, s => s.drawn x y n
  | .skp x, s => { s with pc := if (s.keyRead (s.getV x)).getD false then s.pc + 4 else s.pc + 2 }
  | .sknp x, s => { s with pc := if !(s.keyRead (s.getV x)).getD false then s.pc + 4 else s.pc + 2 }
  | .ldVxDt x, s => s.writeResult x s.dt.value
  | .ldVxK x, s =>
    { s with
      v := (highestKey s.keys).elim s.v fun k => s.v.set x.val (BitVec.ofNat 8 k.val)
      pc := (highestKey s.keys).elim s.pc fun _ => s.pc + 2 }
  | .ldDtVx x, s => { s.advance with dt := s.dt.set (s.getV x) }
  | .ldStVx x, s => { s.advance with st := s.st.set (s.getV x) }
  | .addIVx x, s => { s.advance with i := BitVec.ofNat 16 (s.i.toNat + (s.getV x).toNat) }
  | .ldFVx x, s => { s.advance with i := glyphAddress (s.getV x) }
  | .ldBVx x, s => s.stored (bcdDigits (s.getV x))
  | .ldMemVx x, s => s.stored (regBlock s.v x)
  | .ldVxMem x, s => s.loaded x

end Sys2Proof

namespace Sys2Proof.Machine

/-! ### `exec` answers the effect or the precise fault -/

theorem effect_call_of_lt (nnn : Addr12) {s : State} (h : s.sp.val < 16) :
    (Instr.call nnn).effect s =
      { s with stack := s.stack.set s.sp.val s.pc, sp := ⟨s.sp.val + 1, by omega⟩, pc := zextAddr nnn } := by
  have hstack : s.stack.setIfInBounds s.sp.val s.pc = s.stack.set s.sp.val s.pc := by
    simp [Vector.setIfInBounds, Vector.set, Array.setIfInBounds, h]
  have hsp : min (s.sp.val + 1) 16 = s.sp.val + 1 := by omega
  simp only [Instr.effect, hstack, hsp]

theorem effect_ldVxK_of_none (x : RegIx) {s : State} (h : highestKey s.keys = none) : (Instr.ldVxK x).effect s = s := by
  rw [Instr.effect, h, Option.elim_none, Option.elim_none]

theorem effect_ldVxK_of_some (x : RegIx) {s : State} {k : Fin 16} (h : highestKey s.keys = some k) :
    (Instr.ldVxK x).effect s = s.writeResult x (BitVec.ofNat 8 k.val) := by
  rw [Instr.effect, h, Option.elim_some, Option.elim_some]
  rfl

theorem exec_of_okIn {i : Instr} {s : State} (h : i.okIn s) : exec i s = .next (i.effect s) := by
  cases i with
  | ret => exact exec_ret_of_pos s h
  | call nnn => exact effect_call_of_lt nnn h ▸ exec_call_of_lt nnn s h
  | seImm x kk => exact congrArg _ (s.skip_eq _)
  | sneImm x kk => exact congrArg _ (s.skip_eq _)
  | seReg x y => exact congrArg _ (s.skip_eq _)
  | sneReg x y => exact congrArg _ (s.skip_eq _)
  | drw x y n => exact exec_drw_of_inside x y n h
  | skp x =>
    have hlt : (s.getV x).toNat < 16 := Nat.lt_succ_of_le h
    rw [exec_skp_of_lt hlt, State.skip_eq, Instr.effect, State.keyRead_of_le s _ hlt, Option.getD_some]
  | sknp x =>
    have hlt : (s.getV x).toNat < 16 := Nat.lt_succ_of_le h
    rw [exec_sknp_of_lt hlt, State.skip_eq, Instr.effect, State.keyRead_of_le s _ hlt, Option.getD_some]
  | ldVxK x =>
    cases hk : highestKey s.keys with
    | none => rw [exec_ldVxK_of_none hk, effect_ldVxK_of_none x hk]
    | some k => rw [exec_ldVxK_of_some hk, effect_ldVxK_of_some x hk]
  | addIVx x => exact (execAddIVx_eq x s).trans (if_pos h)
  | ldBVx x => exact execLdBVx_of_inside x s h
  | ldMemVx x => exact execLdMemVx_of_inside x s h
  | ldVxMem x => exact execLdVxMem_of_inside x s h
  | _ => rfl

theorem exec_of_not_okIn {i : Instr} {s : State} (h : ¬ i.okIn s) :
    ∃ c, i.ownFault = some c ∧ exec i s = .next (s.faultedWith c (some (encode i))) := by
  cases i with
  | ret => exact ⟨_, rfl, exec_ret_of_empty s h⟩
  | call nnn => exact ⟨_, rfl, exec_call_of_full nnn s h⟩
  | drw x y n => exact ⟨_, rfl, execDrw_of_outside x y n s h⟩
  | skp x => exact ⟨_, rfl, exec_skp_of_ge fun hlt => h (Nat.le_of_lt_succ hlt)⟩
  | sknp x => exact ⟨_, rfl, exec_sknp_of_ge fun hlt => h (Nat.le_of_lt_succ hlt)⟩
  | addIVx x => exact ⟨_, rfl, (execAddIVx_eq x s).trans (if_neg h)⟩
  | ldBVx x => exact ⟨_, rfl, execLdBVx_of_outside x s h⟩
  | ldMemVx x => exact ⟨_, rfl, execLdMemVx_of_outside x s h⟩
  | ldVxMem x => exact ⟨_, rfl, execLdVxMem_of_outside x s h⟩
  | _ => exact absurd trivial h

/-- Everything an instruction that answers a next state can have done. -/
theorem exec_cases {i : Instr} {s t : State} (h : exec i s = .next t) :
    (i.okIn s ∧ t = i.effect s) ∨
    (¬ i.okIn s ∧ ∃ c, i.ownFault = some c ∧ t = s.faultedWith c (some (encode i))) := by
  by_cases hok : i.okIn s
  · exact .inl ⟨hok, Host.Outcome.next.inj (h.symm.trans (exec_of_okIn hok))⟩
  · obtain ⟨c, hc, hexec⟩ := exec_of_not_okIn hok
    exact .inr ⟨hok, c, hc, Host.Outcome.next.inj (h.symm.trans hexec)⟩

/-- A property of the answer holds when the effect and every fault have it. -/
theorem exec_induction {i : Instr} {s t : State} (P : State → Prop) (h : exec i s = .next t)
    (heffect : P (i.effect s)) (hfault : ∀ c w, P (s.faultedWith c w)) : P t := by
  obtain ⟨-, rfl⟩ | ⟨-, c, -, rfl⟩ := exec_cases h
  · exact heffect
  · exact hfault c _

@[simp] theorem effect_run (i : Instr) (s : State) : (i.effect s).run = s.run := by cases i <;> rfl

/-- Settles O8: the effect keeps the run state, and the fault is the instruction's own. -/
theorem execFaultsPreciselyWhenItsCheckFails : Obligations.ExecFaultsPreciselyWhenItsCheckFails := by
  intro i s hrun
  by_cases hok : i.okIn s
  · refine ⟨_, exec_of_okIn hok, ?_, fun hno => absurd hok hno⟩
    simp [hok, hrun]
  · obtain ⟨c, hc, hexec⟩ := exec_of_not_okIn hok
    refine ⟨_, hexec, ?_, fun _ => ⟨c, hc, rfl⟩⟩
    simp [hok, State.faultedWith]

/-! ### What the effect leaves unchanged -/

@[simp] theorem effect_font (i : Instr) (s : State) : (i.effect s).font = s.font := by cases i <;> rfl

@[simp] theorem effect_keys (i : Instr) (s : State) : (i.effect s).keys = s.keys := by cases i <;> rfl

theorem effect_display {i : Instr} (hcls : i ≠ .cls) (hdrw : ∀ x y n, i ≠ .drw x y n) (s : State) :
    SameDisplay s (i.effect s) := by
  cases i with
  | cls => exact absurd rfl hcls
  | drw x y n => exact absurd rfl (hdrw x y n)
  | _ => exact ⟨rfl, rfl⟩

theorem effect_redraw_of_true (i : Instr) {s : State} (h : s.redraw = true) : (i.effect s).redraw = true := by
  cases i with
  | cls => rfl
  | drw x y n => rfl
  | _ => exact h

theorem effect_stack {i : Instr} (hret : i ≠ .ret) (hcall : ∀ nnn, i ≠ .call nnn) (s : State) :
    SameStack s (i.effect s) := by
  cases i with
  | ret => exact absurd rfl hret
  | call nnn => exact absurd rfl (hcall nnn)
  | _ => exact ⟨rfl, rfl⟩

theorem effect_mem {i : Instr} (hbcd : ∀ x, i ≠ .ldBVx x) (hblock : ∀ x, i ≠ .ldMemVx x) (s : State) :
    (i.effect s).mem = s.mem := by
  cases i with
  | ldBVx x => exact absurd rfl (hbcd x)
  | ldMemVx x => exact absurd rfl (hblock x)
  | _ => rfl

theorem effect_index {i : Instr} (hldI : ∀ nnn, i ≠ .ldI nnn) (hadd : ∀ x, i ≠ .addIVx x)
    (hglyph : ∀ x, i ≠ .ldFVx x) (s : State) : SameIndex s (i.effect s) := by
  cases i with
  | ldI nnn => exact absurd rfl (hldI nnn)
  | addIVx x => exact absurd rfl (hadd x)
  | ldFVx x => exact absurd rfl (hglyph x)
  | _ => rfl

theorem effect_dt {i : Instr} (h : ∀ x, i ≠ .ldDtVx x) (s : State) : (i.effect s).dt = s.dt := by
  cases i with
  | ldDtVx x => exact absurd rfl (h x)
  | _ => rfl

theorem effect_st {i : Instr} (h : ∀ x, i ≠ .ldStVx x) (s : State) : (i.effect s).st = s.st := by
  cases i with
  | ldStVx x => exact absurd rfl (h x)
  | _ => rfl

theorem keepsRegs_effect_ldVxK (x : RegIx) (s : State) : KeepsRegs (· = x) s ((Instr.ldVxK x).effect s) := by
  cases hk : highestKey s.keys with
  | none => exact (effect_ldVxK_of_none x hk).symm ▸ fun _ _ => rfl
  | some k => exact (effect_ldVxK_of_some x hk).symm ▸ keepsRegs_writeResult s x _

theorem keepsRegs_effect (i : Instr) (s : State) : KeepsRegs i.writes s (i.effect s) := by
  cases i with
  | ldImm | addImm | ldReg | orReg | andReg | xorReg | rnd | ldVxDt => exact keepsRegs_writeResult s _ _
  | addReg | sub | shr | subn | shl => exact keepsRegs_writeResultFlag s _ _ _
  | drw x y n => exact (onlyDisplayFlagAndPc_drawn s x y n).1
  | ldVxK x => exact keepsRegs_effect_ldVxK x s
  | ldVxMem x => exact keepsRegs_loaded s x
  | _ => exact fun _ _ => rfl

/-- Settles O47: the effect leaves the display to CLS and DRW, and a fault changes the run state only. -/
theorem onlyClearAndDrawTouchTheDisplay : Obligations.OnlyClearAndDrawTouchTheDisplay := by
  intro i s t h
  refine ⟨fun hcls hdrw => ?_, fun hredraw => ?_⟩
  · exact exec_induction (SameDisplay s) h (effect_display hcls hdrw s) fun _ _ => ⟨rfl, rfl⟩
  · exact exec_induction (·.redraw = true) h (effect_redraw_of_true i hredraw) fun _ _ => hredraw

/-- Settles O49: the effect keeps FONT and the listed cells, so every byte. -/
theorem onlyStoresTouchMemory : Obligations.OnlyStoresTouchMemory := by
  intro i s t hbcd hblock h
  have hmem : t.mem = s.mem := exec_induction (·.mem = s.mem) h (effect_mem hbcd hblock s) fun _ _ => rfl
  have hfont : t.font = s.font := exec_induction (·.font = s.font) h (effect_font i s) fun _ _ => rfl
  exact ⟨⟨hfont, State.byte_congr hfont hmem⟩, hmem⟩

/-- Settles O50: the effect and every fault keep the index register. -/
theorem onlyIndexInstructionsTouchI : Obligations.OnlyIndexInstructionsTouchI := by
  intro i s t hldI hadd hglyph h
  exact exec_induction (SameIndex s) h (effect_index hldI hadd hglyph s) fun _ _ => rfl

/-- Settles O51: the effect keeps the keys, and each timer unless the instruction is its setter. -/
theorem noInstructionWritesKeysAndOnlySettersWriteTimers :
    Obligations.NoInstructionWritesKeysAndOnlySettersWriteTimers := by
  intro i s t h
  refine ⟨?_, fun hdt => ?_, fun hst => ?_⟩
  · exact exec_induction (SameKeys s) h (effect_keys i s) fun _ _ => rfl
  · exact exec_induction (·.dt = s.dt) h (effect_dt hdt s) fun _ _ => rfl
  · exact exec_induction (·.st = s.st) h (effect_st hst s) fun _ _ => rfl

/-- Settles O52: the effect writes the tabled registers, and a fault none. -/
theorem registerWritesAreTheTabledOnes : Obligations.RegisterWritesAreTheTabledOnes := by
  intro i s t h
  exact exec_induction (KeepsRegs i.writes s) h (keepsRegs_effect i s) fun _ _ _ _ => rfl

/-! ### What an instruction does not read -/

/-- An instruction's own check reads the registers, the index register and the depth of the stack only. -/
theorem okIn_congr {s t : State} (hv : t.v = s.v) (hi : t.i = s.i) (hsp : t.sp = s.sp) (i : Instr) :
    i.okIn t ↔ i.okIn s := by
  cases i <;> simp only [Instr.okIn, State.getV, hv, hi, hsp]

/-- Two states in which an instruction's check agrees and that differ by an update the effect and every fault commute
with: the answers differ by that update. -/
theorem exec_commutes {i : Instr} {s t : State} (f : State → State) (h : exec i s = .next t)
    (hok : i.okIn (f s) ↔ i.okIn s) (heffect : i.effect (f s) = f (i.effect s))
    (hfault : ∀ c w, (f s).faultedWith c w = f (s.faultedWith c w)) : exec i (f s) = .next (f t) := by
  obtain ⟨hi, rfl⟩ | ⟨hi, c, hc, rfl⟩ := exec_cases h
  · rw [exec_of_okIn (hok.2 hi), heffect]
  · obtain ⟨c', hc', hexec⟩ := exec_of_not_okIn (mt hok.1 hi)
    rw [hexec, hfault, Option.some.inj (hc'.symm.trans hc)]

theorem okIn_withStack {i : Instr} (hret : i ≠ .ret) (hcall : ∀ nnn, i ≠ .call nnn) (s : State)
    (stack : Vector Word 16) (sp : Fin 17) : i.okIn { s with stack := stack, sp := sp } ↔ i.okIn s := by
  cases i with
  | ret => exact absurd rfl hret
  | call nnn => exact absurd rfl (hcall nnn)
  | _ => exact Iff.rfl

theorem effect_withStack {i : Instr} (hret : i ≠ .ret) (hcall : ∀ nnn, i ≠ .call nnn) (s : State)
    (stack : Vector Word 16) (sp : Fin 17) :
    i.effect { s with stack := stack, sp := sp } = { i.effect s with stack := stack, sp := sp } := by
  cases i with
  | ret => exact absurd rfl hret
  | call nnn => exact absurd rfl (hcall nnn)
  | _ => rfl

/-- Settles O48: for the other instructions the check, the effect and the fault commute with another stack. -/
theorem onlyCallAndReturnTouchTheStack : Obligations.OnlyCallAndReturnTouchTheStack := by
  intro i s t hret hcall h
  refine ⟨exec_induction (SameStack s) h (effect_stack hret hcall s) fun _ _ => ⟨rfl, rfl⟩, fun stack sp => ?_⟩
  exact exec_commutes (fun u => { u with stack := stack, sp := sp }) h (okIn_withStack hret hcall s stack sp)
    (effect_withStack hret hcall s stack sp) fun _ _ => rfl

/-- The effect with another due bit of dt and another st: only the timers differ after it, and not the value of dt. -/
theorem effect_withTimers (i : Instr) (s : State) (due : Bool) (st : Timer) :
    ∃ dt' st' : Timer,
      i.effect { s with dt := ⟨s.dt.value, due⟩, st := st } = { i.effect s with dt := dt', st := st' } ∧
      dt'.value = (i.effect s).dt.value := by
  cases i <;> exact ⟨_, _, rfl, rfl⟩

/-- Settles O53: neither the check nor the effect reads what differs. -/
theorem dueBitsAndSoundTimerAreUnread : Obligations.DueBitsAndSoundTimerAreUnread := by
  intro i s t due st h
  have hcheck := okIn_congr (s := s) (t := { s with dt := ⟨s.dt.value, due⟩, st := st }) rfl rfl rfl i
  obtain ⟨hok, rfl⟩ | ⟨hok, c, hc, rfl⟩ := exec_cases h
  · obtain ⟨dt', st', heffect, hvalue⟩ := effect_withTimers i s due st
    exact ⟨_, heffect ▸ exec_of_okIn (hcheck.2 hok), rfl, hvalue⟩
  · obtain ⟨c', hc', hexec⟩ := exec_of_not_okIn (mt hcheck.1 hok)
    obtain rfl : c' = c := Option.some.inj (hc'.symm.trans hc)
    exact ⟨_, hexec, rfl, rfl⟩

end Sys2Proof.Machine
end

section
/-!
LEMMAS. The cycle (30_encoding.md R136; 60_exceptions.md R354): what each of its checks makes of it, and, the other way,
everything a cycle that answers can have done.
-/

namespace Sys2Proof.Machine

theorem step_of_nextAction {s s1 : State} {a : Action} (h : s.nextAction = (a, s1)) : step s = perform a s1 := by
  rw [step, h]

/-! ### One equation per check -/

theorem cycle_of_fetch_error {s : State} {c : FaultCause} (hrun : s.run = .running) (h : s.fetch = .error c) :
    cycle s = .next (s.faultedWith c none) := by
  simp only [cycle, hrun, h, raise_eq_faultedWith]

theorem cycle_of_illegal {s : State} (hrun : s.run = .running) (hpc : PcFetchable s) (h : decode s.wordAtPc = none) :
    cycle s = .next (s.faultedWith .unknownOpcode (some s.wordAtPc)) := by
  simp only [cycle, hrun, State.fetch_of_fetchable hpc, runWord, h, raise_eq_faultedWith]

theorem cycle_of_legal {s : State} {i : Instr} (hrun : s.run = .running) (hpc : PcFetchable s)
    (h : decode s.wordAtPc = some i) : cycle s = endCycle (exec i s) := by
  simp only [cycle, hrun, State.fetch_of_fetchable hpc, runWord, h]

theorem endCycle_of_running {t : State} (h : t.run = .running) : endCycle (.next t) = .next t.timerCheck := by
  simp only [endCycle, h]

theorem endCycle_faultedWith (s : State) (c : FaultCause) (w : Option Word) :
    endCycle (.next (s.faultedWith c w)) = .next (s.faultedWith c w) := rfl

theorem endCycle_next (t : State) :
    endCycle (.next t) = .next (if t.run = .running then t.timerCheck else t) := by
  cases h : t.run with
  | running => rw [endCycle_of_running h, if_pos rfl]
  | faulted r => simp only [endCycle, h, if_neg (fun hr : RunState.faulted r = .running => nomatch hr)]

theorem cycle_of_okIn {s : State} {i : Instr} (hrun : s.run = .running) (hpc : PcFetchable s)
    (h : decode s.wordAtPc = some i) (hok : i.okIn s) : cycle s = .next (i.effect s).timerCheck := by
  rw [cycle_of_legal hrun hpc h, exec_of_okIn hok, endCycle_of_running ((effect_run i s).trans hrun)]

theorem cycle_of_not_okIn {s : State} {i : Instr} (hrun : s.run = .running) (hpc : PcFetchable s)
    (h : decode s.wordAtPc = some i) (hok : ¬ i.okIn s) :
    ∃ c, i.ownFault = some c ∧ cycle s = .next (s.faultedWith c (some s.wordAtPc)) := by
  obtain ⟨c, hc, hexec⟩ := exec_of_not_okIn hok
  refine ⟨c, hc, ?_⟩
  rw [cycle_of_legal hrun hpc h, hexec, endCycle_faultedWith, encode_of_decode h]

/-- Settles O7: each clause is the equation of its check. -/
theorem faultChecksInOrder : Obligations.FaultChecksInOrder := by
  intro s s1 hnext hrun
  rw [step_of_nextAction hnext, perform_cycle]
  exact ⟨fun hodd => cycle_of_fetch_error hrun (State.fetch_of_odd hodd),
    fun heven hhigh => cycle_of_fetch_error hrun (State.fetch_of_high heven hhigh),
    cycle_of_illegal hrun, fun i => cycle_of_not_okIn hrun⟩

theorem decode_of_decodeBytes {hi lo : Byte} {i : Instr} (h : decodeBytes [hi, lo] = .ok (i, [])) :
    decode (bigEndian hi lo) = some i := by
  rw [decodeBytes] at h
  split at h
  · next j hj =>
    obtain rfl : j = i := congrArg Prod.fst (Except.ok.inj h)
    exact hj
  · cases h

/-- Settles O5: an empty schedule stands for a cycle request, and the cycle ends with the timer check of a core that is
still Running. -/
theorem stepRunsDecodedInstruction : Obligations.StepRunsDecodedInstruction := by
  refine ⟨fun s hs => ?_, fun s rest hs => ?_, fun s s1 t i hnext hrun hpc hbytes _ hexec => ?_⟩
  · rw [State.nextAction, hs]
  · rw [State.nextAction, hs]
  · rw [step_of_nextAction hnext, perform_cycle, cycle_of_legal hrun hpc (decode_of_decodeBytes hbytes), hexec,
      endCycle_next]

/-- Settles O10: a cycle looks at the run state first. -/
theorem faultedCoreTakesNoCycle : Obligations.FaultedCoreTakesNoCycle := by
  intro s s1 r hnext hrun
  rw [step_of_nextAction hnext, perform_cycle, cycle, hrun]

/-! ### Everything a cycle can have done -/

/-- A cycle that answers was one of a Running core; it stopped the core with a record that fits, or it ran a legal
instruction whose own check passed. -/
theorem cycle_answers {s t : State} (h : cycle s = .next t) :
    s.run = .running ∧
      ((∃ r : FaultRecord, r.Fits s ∧ t = { s with run := .faulted r }) ∨
       (∃ i, PcFetchable s ∧ decode s.wordAtPc = some i ∧ i.okIn s ∧ t = (i.effect s).timerCheck)) := by
  obtain ⟨hrun, hcases⟩ := cycle_cases h
  refine ⟨hrun, ?_⟩
  have answer {u : State} (hu : cycle s = .next u) : t = u := Host.Outcome.next.inj (h.symm.trans hu)
  obtain ⟨c, hf, -⟩ | ⟨w, hf, hd, -⟩ | ⟨w, i, -, hf, hd, -, -⟩ := hcases
  · exact .inl ⟨⟨c, s.pc, none⟩, ⟨rfl, hf⟩, answer (cycle_of_fetch_error hrun hf)⟩
  all_goals
    obtain ⟨heven, hle, hw⟩ := (State.fetch_eq_ok s w).1 hf
    obtain rfl : w = s.wordAtPc := hw
  · exact .inl ⟨⟨.unknownOpcode, s.pc, some s.wordAtPc⟩, ⟨rfl, hf, .inl ⟨hd, rfl⟩⟩,
      answer (cycle_of_illegal hrun ⟨heven, hle⟩ hd)⟩
  · by_cases hok : i.okIn s
    · exact .inr ⟨i, ⟨heven, hle⟩, hd, hok, answer (cycle_of_okIn hrun ⟨heven, hle⟩ hd hok)⟩
    · obtain ⟨c, hc, hcycle⟩ := cycle_of_not_okIn hrun ⟨heven, hle⟩ hd hok
      exact .inl ⟨⟨c, s.pc, some s.wordAtPc⟩, ⟨rfl, hf, .inr ⟨i, hd, hc, hok⟩⟩, answer hcycle⟩

/-- Settles O9: of the two things a cycle can have done, only the second leaves the core Running. -/
theorem cycleIsSafeExactlyUnderTheProgramInvariants : Obligations.CycleIsSafeExactlyUnderTheProgramInvariants := by
  intro s s1 hnext hrun
  rw [SafeStep, step_of_nextAction hnext, perform_cycle]
  constructor
  · rintro ⟨t, hcycle, hsafe⟩
    obtain ⟨-, ⟨r, -, rfl⟩ | ⟨i, hpc, hd, hok, -⟩⟩ := cycle_answers hcycle
    · cases hsafe
    · exact ⟨hpc, i, hd, hok⟩
  · rintro ⟨hpc, i, hd, hok⟩
    exact ⟨_, cycle_of_okIn hrun hpc hd hok, (effect_run i s1).trans hrun⟩

end Sys2Proof.Machine
end

section
/-!
LEMMAS. The host's moves (60_exceptions.md section 5; 70_reset_and_hazards.md section 2), one by one, and then
everything a step can have done: a cycle, a launch, or a move that changes only what the host may.
-/

namespace Sys2Proof.Machine

/-! ### One move at a time -/

/-- Settles O55: the move sets one entry of the key matrix. -/
theorem keyWriteSetsOneKey : Obligations.KeyWriteSetsOneKey := by
  intro s k pressed rest hs
  refine ⟨_, step_of_cons s _ rest hs, Vector.getElem_set_self k.isLt, fun j hj => ?_, rfl⟩
  exact Vector.getElem_set_ne k.isLt j.isLt fun h => hj (Fin.ext h.symm)

/-- Settles O56: the move is a record update, and both snapshots are the same pair of fields. -/
theorem consumeFrameSnapshotsThenClears : Obligations.ConsumeFrameSnapshotsThenClears := by
  intro s rest hs
  exact ⟨step_of_cons s _ rest hs, rfl, rfl⟩

theorem State.timePasses_of_running {s : State} (h : s.run = .running) (dt st : Bool) :
    s.timePasses dt st = { s with dt := s.dt.pass dt, st := s.st.pass st } := by
  rw [State.timePasses, h]

theorem State.timePasses_of_not_running {s : State} (h : s.run ≠ .running) (dt st : Bool) : s.timePasses dt st = s := by
  cases hrun : s.run with
  | running => exact absurd hrun h
  | faulted r => rw [State.timePasses, hrun]

/-- Settles O57: on a Running core time passes for both timers. -/
theorem timePassesSetsDueBitsOnly : Obligations.TimePassesSetsDueBitsOnly := by
  intro s dt st rest hs hrun
  have hpass := State.timePasses_of_running (s := { s with schedule := rest }) hrun dt st
  exact ⟨_, (step_of_cons s _ rest hs).trans (congrArg Host.Outcome.next hpass), rfl, rfl, rfl⟩

/-- The state a launch of these bytes leaves. -/
def State.launched (s : State) (bytes : List Byte) : State :=
  { State.resetWith s.font with
    mem := Memory.storeBytes s.font [] 0x200 bytes
    draws := s.draws
    schedule := s.schedule }

theorem launch_of_le {p : Option (List Byte)} (s : State) (h : (p.getD Config.defaultProgram).length ≤ 3584) :
    launch p s = .next (s.launched (p.getD Config.defaultProgram)) :=
  (launch_eq p s).trans (if_pos h)

theorem launch_of_gt {p : Option (List Byte)} (s : State) (h : 3584 < (p.getD Config.defaultProgram).length) :
    launch p s = .refused .programTooLong :=
  (launch_eq p s).trans (if_neg (not_le.2 h))

theorem launch_answers {p : Option (List Byte)} {s t : State} (h : launch p s = .next t) :
    ∃ bytes : List Byte, bytes.length ≤ 3584 ∧ t = s.launched bytes := by
  by_cases hle : (p.getD Config.defaultProgram).length ≤ 3584
  · exact ⟨_, hle, Host.Outcome.next.inj (h.symm.trans (launch_of_le s hle))⟩
  · exact absurd (h.symm.trans (launch_of_gt s (not_le.1 hle))) nofun

theorem State.byte_launched_program (s : State) {bytes : List Byte} (h : bytes.length ≤ 3584) {k : Nat}
    (hk : k < bytes.length) : (s.launched bytes).byte (0x200 + k) = bytes[k] :=
  Memory.byte_storeBytes_inside (Memory.wf_nil s.font) (by simp only [Config.memSize]; omega) hk

/-- Settles O58: the load writes the program into the memory of the reset state, which lists nothing. -/
theorem launchResetsAndLoads : Obligations.LaunchResetsAndLoads := by
  intro s p rest hs
  rw [step_of_cons s _ rest hs]
  refine ⟨fun hle => ?_, launch_of_gt _⟩
  exact ⟨_, launch_of_le _ hle, fun k hk => State.byte_launched_program _ hle hk,
    fun a ha => Memory.byte_storeBytes_outside s.font [] ha, rfl⟩

/-! ### Everything a step can have done -/

/-- What a host move short of a launch may change: the timers, and only their due bits, and none of a Faulted core;
the key matrix; redraw, which it does not raise; and the model's own schedule. -/
structure HostMoved (s t : State) : Prop where
  frame : t = { s with dt := t.dt, st := t.st, keys := t.keys, redraw := t.redraw, schedule := t.schedule }
  dt_value : t.dt.value = s.dt.value
  st_value : t.st.value = s.st.value
  timers_of_faulted : s.run ≠ .running → t.dt = s.dt ∧ t.st = s.st
  redraw_of_false : s.redraw = false → t.redraw = false

theorem hostMoved_timePasses (s : State) (rest : List Action) (dt st : Bool) :
    HostMoved s (State.timePasses { s with schedule := rest } dt st) := by
  by_cases hrun : s.run = .running
  · rw [State.timePasses_of_running (s := { s with schedule := rest }) hrun]
    exact ⟨rfl, rfl, rfl, fun h => absurd hrun h, id⟩
  · rw [State.timePasses_of_not_running (s := { s with schedule := rest }) hrun]
    exact ⟨rfl, rfl, rfl, fun _ => ⟨rfl, rfl⟩, id⟩

theorem hostMoved_keyWrite (s : State) (rest : List Action) (k : Fin 16) (pressed : Bool) :
    HostMoved s (State.keyWrite { s with schedule := rest } k pressed) :=
  ⟨rfl, rfl, rfl, fun _ => ⟨rfl, rfl⟩, id⟩

theorem hostMoved_consumeFrame (s : State) (rest : List Action) :
    HostMoved s (State.consumeFrame { s with schedule := rest }).2 :=
  ⟨rfl, rfl, rfl, fun _ => ⟨rfl, rfl⟩, fun _ => rfl⟩

theorem step_answers {s t : State} (h : step s = .next t) :
    (s.nextAction.1 = .cycle ∧ ∃ rest, cycle { s with schedule := rest } = .next t) ∨
    (∃ p, s.nextAction.1 = .launch p ∧ ∃ rest bytes, bytes.length ≤ 3584 ∧
      t = State.launched { s with schedule := rest } bytes) ∨
    HostMoved s t := by
  obtain ⟨hs, hnext⟩ | ⟨a, rest, hs, hnext⟩ := s.nextAction_cases
  · exact .inl ⟨congrArg Prod.fst hnext, s.schedule, (step_of_empty s hs).symm.trans h⟩
  · rw [step_of_cons s a rest hs] at h
    rw [hnext]
    cases a with
    | cycle => exact .inl ⟨rfl, rest, h⟩
    | launch p =>
      obtain ⟨bytes, hle, ht⟩ := launch_answers h
      exact .inr (.inl ⟨p, rfl, rest, bytes, hle, ht⟩)
    | timePasses dt st => exact .inr (.inr (Host.Outcome.next.inj h ▸ hostMoved_timePasses s rest dt st))
    | keyWrite k pressed => exact .inr (.inr (Host.Outcome.next.inj h ▸ hostMoved_keyWrite s rest k pressed))
    | consumeFrame => exact .inr (.inr (Host.Outcome.next.inj h ▸ hostMoved_consumeFrame s rest))

/-- Short of a launch, a step is a cycle or a host move. -/
theorem step_answers_of_not_launch {s t : State} (hlaunch : ∀ p, s.nextAction.1 ≠ .launch p) (h : step s = .next t) :
    (s.nextAction.1 = .cycle ∧ ∃ rest, cycle { s with schedule := rest } = .next t) ∨ HostMoved s t := by
  obtain hcycle | ⟨p, hp, -⟩ | hhost := step_answers h
  · exact .inl hcycle
  · exact absurd hp (hlaunch p)
  · exact .inr hhost

/-- Settles O59: every field of the statement is outside the frame of a host move. -/
theorem hostMovesLeaveTheProgramStateAlone : Obligations.HostMovesLeaveTheProgramStateAlone := by
  intro s t hcycle hlaunch h
  obtain ⟨hc, -⟩ | hhost := step_answers_of_not_launch hlaunch h
  · exact absurd hc hcycle
  · obtain ⟨hframe, hdt, hst, -, -⟩ := hhost
    rw [hframe]
    exact ⟨fun _ _ => rfl, rfl, rfl, ⟨rfl, rfl⟩, ⟨rfl, fun _ => rfl⟩, rfl, hdt, hst, rfl, rfl⟩

/-- Settles O11: a Faulted core takes no cycle, and no host move touches its timers. -/
theorem faultedCoreIsFrozen : Obligations.FaultedCoreIsFrozen := by
  intro s t r hrun hlaunch h
  obtain ⟨-, rest, hcycle⟩ | hhost := step_answers_of_not_launch hlaunch h
  · obtain ⟨hrunning, -⟩ := cycle_answers hcycle
    exact absurd (hrun.symm.trans hrunning) nofun
  · obtain ⟨hdt, hst⟩ := hhost.timers_of_faulted fun hr => absurd (hrun.symm.trans hr) nofun
    refine ⟨?_, hhost.redraw_of_false⟩
    have hframe := hhost.frame
    rw [hdt, hst] at hframe
    exact hframe

/-- Settles O54: a cycle and a host move keep FONT, and a launch resets the core for it. -/
theorem noStepChangesTheFont : Obligations.NoStepChangesTheFont := by
  intro s t h
  obtain ⟨-, rest, hcycle⟩ | ⟨p, -, rest, bytes, -, rfl⟩ | hhost := step_answers h
  · obtain ⟨-, ⟨r, -, rfl⟩ | ⟨i, -, -, -, rfl⟩⟩ := cycle_answers hcycle
    · rfl
    · exact effect_font i { s with schedule := rest }
  · rfl
  · rw [hhost.frame]

/-! ### The timers across a step -/

theorem effect_dt_cases (i : Instr) (s : State) :
    (i.effect s).dt = s.dt ∨ ∃ x, i = .ldDtVx x ∧ (i.effect s).dt = s.dt.set (s.getV x) := by
  by_cases h : ∃ x, i = .ldDtVx x
  · obtain ⟨x, rfl⟩ := h
    exact .inr ⟨x, rfl, rfl⟩
  · exact .inl (effect_dt (not_exists.1 h) s)

theorem effect_st_cases (i : Instr) (s : State) :
    (i.effect s).st = s.st ∨ ∃ x, i = .ldStVx x ∧ (i.effect s).st = s.st.set (s.getV x) := by
  by_cases h : ∃ x, i = .ldStVx x
  · obtain ⟨x, rfl⟩ := h
    exact .inr ⟨x, rfl, rfl⟩
  · exact .inl (effect_st (not_exists.1 h) s)

/-- One timer across the execute phase and the check: `sets x` says that the instruction set it from V[x], held in
`value x`. -/
theorem Timer.check_cases {t u : Timer} {sets : RegIx → Prop} {value : RegIx → Byte}
    (h : u = t ∨ ∃ x, sets x ∧ u = t.set (value x)) :
    u.check.value = t.value ∨
    (t.value ≠ 0 ∧ t.due = true ∧ u.check.value.toNat + 1 = t.value.toNat ∧ u.check.due = false) ∨
    ∃ x, sets x ∧ u.check = ⟨value x, false⟩ := by
  obtain rfl | ⟨x, hx, rfl⟩ := h
  · by_cases hdue : u.value ≠ 0 ∧ u.due = true
    · exact .inr (.inl ⟨hdue.1, hdue.2, Timer.check_falls hdue⟩)
    · exact .inl (congrArg Timer.value (Timer.check_of_not_due hdue))
  · exact .inr (.inr ⟨x, hx, t.check_set (value x)⟩)

/-- Settles O45: only the cycle of a completed instruction can change a value, by the setter or by the check. -/
theorem timersFallByAtMostOnePerStep : Obligations.TimersFallByAtMostOnePerStep := by
  intro s t hlaunch h
  obtain ⟨-, rest, hcycle⟩ | hhost := step_answers_of_not_launch hlaunch h
  · obtain ⟨-, ⟨r, -, rfl⟩ | ⟨i, -, hd, -, rfl⟩⟩ := cycle_answers hcycle
    · exact ⟨.inl rfl, .inl rfl⟩
    · have hword : decode s.wordAtPc = some i := hd
      rw [hword]
      simp only [Option.some.injEq]
      exact ⟨Timer.check_cases (effect_dt_cases i { s with schedule := rest }),
        Timer.check_cases (effect_st_cases i { s with schedule := rest })⟩
  · exact ⟨.inl hhost.dt_value, .inl hhost.st_value⟩

end Sys2Proof.Machine
end

section
/-!
LEMMAS. The invariant (10_state.md R36, R42, R61): it holds at reset, the effect of every instruction that a cycle runs
keeps each of its clauses, and so does every step. Then the values after reset.
-/

namespace Sys2Proof.Machine

/-! ### The clauses of the invariant under the effect -/

theorem insideMemory_iff (a n : Nat) : InsideMemory a n ↔ n = 0 ∨ a + n ≤ Config.memSize := by
  simp only [InsideMemory, Config.memSize]
  omega

theorem stored_wf {s : State} (hwf : Memory.wf s.font s.mem) {bytes : List Byte}
    (h : InsideMemory s.i.toNat bytes.length) : Memory.wf (s.stored bytes).font (s.stored bytes).mem := by
  obtain hnil | hfit := (insideMemory_iff _ _).1 h
  · obtain rfl := List.length_eq_zero_iff.1 hnil
    exact hwf
  · exact Memory.storeBytes_wf hwf hfit

theorem effect_wf {i : Instr} {s : State} (hwf : Memory.wf s.font s.mem) (hok : i.okIn s) :
    Memory.wf (i.effect s).font (i.effect s).mem := by
  cases i with
  | ldBVx x => exact stored_wf hwf hok
  | ldMemVx x => exact stored_wf hwf ((length_regBlock s.v x).symm ▸ hok)
  | _ => exact hwf

theorem toNat_add_two_le {w : Word} (h : w.toNat ≤ 0xFFE) : (w + 2).toNat ≤ 0x10FE := by
  bv_omega

theorem toNat_skip_le {w : Word} (h : w.toNat ≤ 0xFFE) (c : Bool) : (if c then w + 4 else w + 2).toNat ≤ 0x10FE := by
  cases c
  · exact toNat_add_two_le h
  · show (w + 4).toNat ≤ 0x10FE
    bv_omega

theorem zextAddr_le (nnn : Addr12) : (zextAddr nnn).toNat ≤ 0x10FE := by
  rw [zextAddr_toNat]
  omega

/-- From an address that can be fetched, no instruction takes `pc` above 0x10FE. -/
theorem effect_pc_le {i : Instr} {s : State} (hinv : s.Inv) (hpc : s.pc.toNat ≤ 0xFFE) (hok : i.okIn s) :
    (i.effect s).pc.toNat ≤ 0x10FE := by
  cases i with
  | ret =>
    obtain ⟨-, hle⟩ := hinv.toNat_resume hok
    exact hle.trans (by decide)
  | jp nnn | call nnn => exact zextAddr_le nnn
  | jpV0 nnn => exact indexedTarget_le nnn _
  | seImm | sneImm | seReg | sneReg | skp | sknp => exact toNat_skip_le hpc _
  | ldVxK x =>
    cases hk : highestKey s.keys with
    | none => exact (effect_ldVxK_of_none x hk).symm ▸ hinv.pc
    | some k => exact (effect_ldVxK_of_some x hk).symm ▸ toNat_add_two_le hpc
  | _ => exact toNat_add_two_le hpc

/-- A call-stack entry that R42 allows: the address of a fetched CALL. -/
def StackEntryOk (w : Word) : Prop := w.toNat % 2 = 0 ∧ w.toNat ≤ 0xFFE

/-- Every live entry is good. -/
def StackOk (stack : Vector Word 16) (depth : Nat) : Prop :=
  ∀ (k : Nat) (h : k < 16), k < depth → StackEntryOk stack[k]

theorem StackOk.pop {stack : Vector Word 16} {depth : Nat} (h : StackOk stack depth) : StackOk stack (depth - 1) :=
  fun k hk hlt => h k hk (by omega)

theorem StackOk.push {stack : Vector Word 16} {depth : Nat} (h : StackOk stack depth) {w : Word} (hw : StackEntryOk w)
    (hdepth : depth < 16) : StackOk (stack.set depth w) (depth + 1) := by
  intro k hk hlt
  by_cases hkd : k = depth
  · subst hkd
    rwa [Vector.getElem_set_self]
  · rw [Vector.getElem_set_ne _ _ (Ne.symm hkd)]
    exact h k hk (by omega)

theorem effect_stackOk {i : Instr} {s : State} (hstack : StackOk s.stack s.sp.val) (hpc : PcFetchable s)
    (hok : i.okIn s) : StackOk (i.effect s).stack (i.effect s).sp.val := by
  cases i with
  | ret => exact hstack.pop
  | call nnn => exact effect_call_of_lt nnn hok ▸ hstack.push hpc hok
  | _ => exact hstack

theorem effect_timerCheck_inv {i : Instr} {s : State} (hinv : s.Inv) (hrun : s.run = .running) (hpc : PcFetchable s)
    (hok : i.okIn s) : (i.effect s).timerCheck.Inv where
  memory := effect_wf hinv.memory hok
  pc := effect_pc_le hinv hpc.2 hok
  stack := effect_stackOk hinv.stack hpc hok
  record := fun _ hr => absurd (((effect_run i s).trans hrun).symm.trans hr) nofun

/-! ### Faults and host moves -/

/-- A fit record looks at `pc`, memory and what an instruction's own check reads. -/
theorem FaultRecord.Fits.congr {r : FaultRecord} {s t : State} (h : r.Fits s) (hpc : t.pc = s.pc)
    (hfont : t.font = s.font) (hmem : t.mem = s.mem) (hv : t.v = s.v) (hi : t.i = s.i) (hsp : t.sp = s.sp) :
    r.Fits t := by
  have hcheck (i : Instr) := okIn_congr hv hi hsp i
  simpa only [FaultRecord.Fits, hpc, State.fetch_congr hpc hfont hmem, hcheck] using h

theorem State.Inv.fault {s : State} (hinv : s.Inv) {r : FaultRecord} (hr : r.Fits s) :
    State.Inv { s with run := .faulted r } where
  memory := hinv.memory
  pc := hinv.pc
  stack := hinv.stack
  record := fun _ hrun => RunState.faulted.inj hrun ▸ hr.congr rfl rfl rfl rfl rfl rfl

theorem State.Inv.hostMoved {s t : State} (hinv : s.Inv) (h : HostMoved s t) : t.Inv := by
  rw [h.frame]
  exact
    { memory := hinv.memory
      pc := hinv.pc
      stack := hinv.stack
      record := fun r hrun => (hinv.record r hrun).congr rfl rfl rfl rfl rfl rfl }

theorem State.Inv.withSchedule {s : State} (hinv : s.Inv) (rest : List Action) :
    State.Inv { s with schedule := rest } :=
  hinv.hostMoved ⟨rfl, rfl, rfl, fun _ => ⟨rfl, rfl⟩, id⟩

theorem cycle_inv {s t : State} (hinv : s.Inv) (h : cycle s = .next t) : t.Inv := by
  obtain ⟨hrun, ⟨r, hr, rfl⟩ | ⟨i, hpc, -, hok, rfl⟩⟩ := cycle_answers h
  · exact hinv.fault hr
  · exact effect_timerCheck_inv hinv hrun hpc hok

theorem launched_inv (s : State) {bytes : List Byte} (h : bytes.length ≤ 3584) : (s.launched bytes).Inv where
  memory := Memory.storeBytes_wf (Memory.wf_nil s.font) (by simp only [Config.memSize]; omega)
  pc := show (0x200 : Word).toNat ≤ 0x10FE by decide
  stack := fun k _ hlt => absurd hlt k.not_lt_zero
  record := fun _ hr => nomatch hr

/-- Settles O12: reset lists nothing, has no live entry and is Running. -/
theorem resetMeetsTheInvariant : Obligations.ResetMeetsTheInvariant where
  memory := Memory.wf_nil _
  pc := by decide
  stack := fun k _ hlt => absurd hlt k.not_lt_zero
  record := fun _ hr => nomatch hr

/-- Settles O13: a cycle, a launch and a host move each lead to a state that meets the invariant. -/
theorem stepKeepsTheInvariant : Obligations.StepKeepsTheInvariant := by
  intro s t hinv h
  obtain ⟨-, rest, hcycle⟩ | ⟨p, -, rest, bytes, hle, rfl⟩ | hhost := step_answers h
  · exact cycle_inv (hinv.withSchedule rest) hcycle
  · exact launched_inv _ hle
  · exact hinv.hostMoved hhost

/-! ### The values after reset -/

/-- Settles O15: reset lists no cell, so memory below 0x050 reads as FONT; the two glyphs are read from the table. -/
theorem resetValuesAreTheDecidedOnes : Obligations.ResetValuesAreTheDecidedOnes := by
  refine ⟨fun r => ?_, rfl, rfl, fun k h => ?_, rfl, rfl, fun k h => ?_, fun r c hr hc => getElem_blankFrame hr hc, rfl,
    rfl, fun font => ⟨rfl, fun a h => Memory.byte_nil_of_lt font h⟩, by decide, by decide⟩
  · exact Vector.getElem_replicate r.isLt
  · exact Vector.getElem_replicate h
  · exact Vector.getElem_replicate h

end Sys2Proof.Machine
end
